-- ==== Sys2Proof/Word.lean ====
section
/-! DEFINITION. The word type of the LS-8, its register names and interrupt lines, and the plainest arithmetic on bytes. -/

namespace Sys2Proof

/-- Every register, memory cell and address of the machine is one unsigned byte (10_state.md R10, R13; 20_memory.md R30). -/
abbrev Byte := BitVec 8

/-- The register file has the indices 0 to 7, "the architectural register number" (10_state.md R10). -/
inductive Reg
  | r0 | r1 | r2 | r3 | r4 | r5 | r6 | r7
deriving DecidableEq, Repr

/-- Register 5 is the interrupt mask IM (10_state.md R11). -/
abbrev Reg.im : Reg := .r5

/-- Register 6 is the interrupt status IS (10_state.md R11). -/
abbrev Reg.is : Reg := .r6

/-- Register 7 is the stack pointer SP (10_state.md R11). -/
abbrev Reg.sp : Reg := .r7

/-- An interrupt line, 0 to 7: "a value of `i` outside 0 to 7 cannot be presented" (00_scope.md R7). -/
abbrev Line := Fin 8

/-- The true unsigned result reduced modulo 256 (41_alu.md R75). -/
def wrap (n : Nat) : Byte := BitVec.ofNat 8 n

/-- `opcode[7:6]` as a number 0 to 3 (30_encoding.md R46; 00_scope.md section 7 for the notation). -/
def topTwoBits (op : Byte) : Nat := op.toNat / 64

end Sys2Proof
end

