-- ==== Sys2Proof/Config.lean ====
section
/-! DEFINITION. What the configuration fixes: the 16 mnemonics, their formats, and what an OPCODE_MAP is and must satisfy.

The machine has no undefined value (93_implementation_defined.md part 1, last paragraph), so there is no free value here.
The default OPCODE_MAP itself is `opcodeMap` in Decode.lean; MEM_INIT is the argument of `Machine.State.boot`. -/

namespace Sys2Proof

/-- The 16 instructions by name, in the order of the opcode table (30_encoding.md R49). -/
inductive Mnemonic
  | hlt | ret | iret | pra | prn | call | pop | push | jmp | jeq | jne | ldi | st | cmp | add | mul
deriving DecidableEq, Repr

/-- The 16 mnemonics as a list: the rows of the opcode table, in its order. -/
def Mnemonic.all : List Mnemonic :=
  [.hlt, .ret, .iret, .pra, .prn, .call, .pop, .push, .jmp, .jeq, .jne, .ldi, .st, .cmp, .add, .mul]

/-- The four formats (30_encoding.md R47). -/
inductive Format
  | z    -- no operand
  | r    -- one register
  | rr   -- two registers
  | ri   -- a register and an immediate
deriving DecidableEq, Repr

/-- Column "format" of the opcode table (30_encoding.md R47, R49). -/
def Mnemonic.format : Mnemonic → Format
  | .hlt | .ret | .iret => .z
  | .pra | .prn | .call | .pop | .push | .jmp | .jeq | .jne => .r
  | .st | .cmp | .add | .mul => .rr
  | .ldi => .ri

/-- Column "N": the number of operand bytes (30_encoding.md R47, R49). -/
def Format.operandCount : Format → Nat
  | .z => 0
  | .r => 1
  | .rr | .ri => 2

/-- The formats whose operand A is a register index (40_cycle_decode.md R65). -/
def Format.hasRegA : Format → Bool
  | .z => false
  | .r | .rr | .ri => true

/-- The formats whose operand B is a register index (40_cycle_decode.md R65). -/
def Format.hasRegB : Format → Bool
  | .z | .r | .ri => false
  | .rr => true

/-- The two operand bytes of an instruction, as a fault record names them (60_exceptions.md R103). -/
inductive OperandSlot
  | a | b
deriving DecidableEq, Repr

/-- The configuration parameter OPCODE_MAP, mnemonic to opcode byte (30_encoding.md R49; D1: OPEN). -/
abbrev OpcodeMap := Mnemonic → Byte

/-- The constraints every OPCODE_MAP must meet: (i) 16 distinct bytes, (ii) bits 7:6 equal the operand count
(30_encoding.md R49). -/
structure OpcodeMap.Legal (m : OpcodeMap) : Prop where
  injective : ∀ x y : Mnemonic, m x = m y → x = y
  count : ∀ x : Mnemonic, topTwoBits (m x) = x.format.operandCount

end Sys2Proof
end

