-- ==== Sys2Proof/Syntax.lean ====
section
/-! DEFINITION. The instructions of the LS-8: one constructor per row of the opcode table, in its order.

A register operand is a `Reg`: the decoder has checked its byte (40_cycle_decode.md R65), so no instruction with an
illegal register index can be written down. What is checked is the fetched byte tuple, in WellFormed.lean. -/

namespace Sys2Proof

/-- "A tagged variant (enum) over the fixed, known instruction set" (30_encoding.md R49, R52). -/
inductive Instr
  | hlt                          -- R98, stop the cycle loop
  | ret                          -- R97, pc := pop
  | iret                         -- R118, return from interrupt
  | pra  (a : Reg)               -- R90, print character
  | prn  (a : Reg)               -- R89, print number
  | call (a : Reg)               -- R96, push the return address, jump
  | pop  (a : Reg)               -- R84
  | push (a : Reg)               -- R83
  | jmp  (a : Reg)               -- R93
  | jeq  (a : Reg)               -- R94, jump if EQUAL
  | jne  (a : Reg)               -- R95, jump if not EQUAL
  | ldi  (a : Reg) (imm : Byte)  -- R87, load immediate
  | st   (a b : Reg)             -- R88, store x[b] at address x[a]
  | cmp  (a b : Reg)             -- R78
  | add  (a b : Reg)             -- R76
  | mul  (a b : Reg)             -- R77
deriving DecidableEq, Repr

/-- The row of the opcode table an instruction belongs to. -/
def Instr.mnemonic : Instr → Mnemonic
  | .hlt => .hlt
  | .ret => .ret
  | .iret => .iret
  | .pra _ => .pra
  | .prn _ => .prn
  | .call _ => .call
  | .pop _ => .pop
  | .push _ => .push
  | .jmp _ => .jmp
  | .jeq _ => .jeq
  | .jne _ => .jne
  | .ldi _ _ => .ldi
  | .st _ _ => .st
  | .cmp _ _ => .cmp
  | .add _ _ => .add
  | .mul _ _ => .mul

end Sys2Proof
end

