-- ==== Sys2Proof/WellFormed.lean ====
section
/-! DEFINITION. The fetched byte tuple, and which tuples are well-formed instructions under an OPCODE_MAP. -/

namespace Sys2Proof

/-- The three bytes a cycle always fetches: opcode at pc, operand A at pc+1, operand B at pc+2
(30_encoding.md R45, 40_cycle_decode.md R63). -/
structure Fetched where
  op : Byte
  a  : Byte
  b  : Byte
deriving DecidableEq, Repr

/-- The bytes in ascending address order (20_memory.md R33). -/
def Fetched.bytes (f : Fetched) : List Byte := [f.op, f.a, f.b]

/-- The first three bytes of a byte sequence, as fetched; a byte the sequence lacks is read as zero. -/
def Fetched.ofBytes : List Byte → Fetched
  | [] => ⟨0#8, 0#8, 0#8⟩
  | [op] => ⟨op, 0#8, 0#8⟩
  | [op, a] => ⟨op, a, 0#8⟩
  | op :: a :: b :: _ => ⟨op, a, b⟩

/-- A register operand byte is legal only if it is in 0 to 7 (30_encoding.md R48). -/
def regByteLegal (v : Byte) : Bool := decide (v.toNat ≤ 7)

/-- The operand checks of one format, A then B (40_cycle_decode.md R65). -/
def Fetched.operandsLegal (f : Fetched) (fmt : Format) : Bool :=
  (!fmt.hasRegA || regByteLegal f.a) && (!fmt.hasRegB || regByteLegal f.b)

/-- A tuple is an instruction when its opcode byte is one of the map's and every register operand its format has is legal
(30_encoding.md R48, R50, R51). -/
def Fetched.wellFormed (m : OpcodeMap) (f : Fetched) : Bool :=
  Mnemonic.all.any (fun x => decide (m x = f.op) && f.operandsLegal x.format)

end Sys2Proof
end

