-- ==== Sys2Proof/Decode.lean ====
section
/-! DEFINITION. The decoder, total on every byte triple and rejecting by name, and after it the encoder. Both take the
OPCODE_MAP as an argument; `decode` and `encode` use the spec's default map. -/

namespace Sys2Proof

/-- The default OPCODE_MAP (30_encoding.md R49, column "default opcode"; spec/opcode_table.json).
PRESUMED by the spec itself from general knowledge of the family (D1, K1); log 1. -/
def opcodeMap : OpcodeMap
  | .hlt  => 0x01#8
  | .ret  => 0x09#8
  | .iret => 0x0B#8
  | .pra  => 0x42#8
  | .prn  => 0x43#8
  | .call => 0x48#8
  | .pop  => 0x4C#8
  | .push => 0x4D#8
  | .jmp  => 0x50#8
  | .jeq  => 0x51#8
  | .jne  => 0x52#8
  | .ldi  => 0x99#8
  | .st   => 0x9A#8
  | .cmp  => 0xA0#8
  | .add  => 0xA8#8
  | .mul  => 0xAA#8

/-- Why the decoder rejects a triple: the two decode faults, less the pc (60_exceptions.md R102, R103). -/
inductive DecodeError
  | invalidOpcode (opcode : Byte)
  | invalidRegisterIndex (opcode : Byte) (which : OperandSlot) (value : Byte)
deriving DecidableEq, Repr

/-- OPCODE_MAP^-1: the mnemonic whose opcode byte this is, if any (40_cycle_decode.md R60 phase 3, R64). -/
def OpcodeMap.lookup (m : OpcodeMap) (op : Byte) : Option Mnemonic :=
  Mnemonic.all.find? (fun x => decide (m x = op))

/-- The register a whole operand byte names; none above 7, with no masking (30_encoding.md R48; D20). -/
def Reg.ofByte? (v : Byte) : Option Reg :=
  match v.toNat with
  | 0 => some .r0
  | 1 => some .r1
  | 2 => some .r2
  | 3 => some .r3
  | 4 => some .r4
  | 5 => some .r5
  | 6 => some .r6
  | 7 => some .r7
  | _ => none

/-- The operand byte of a register (30_encoding.md R48). -/
def Reg.toByte : Reg → Byte
  | .r0 => 0#8
  | .r1 => 1#8
  | .r2 => 2#8
  | .r3 => 3#8
  | .r4 => 4#8
  | .r5 => 5#8
  | .r6 => 6#8
  | .r7 => 7#8

/-- Format R and RI: operand A is checked (40_cycle_decode.md R65). -/
def decodeRegA (f : Fetched) (k : Reg → Instr) : Except DecodeError Instr :=
  match Reg.ofByte? f.a with
  | none => .error (.invalidRegisterIndex f.op .a f.a)
  | some a => .ok (k a)

/-- Format RR: operand A is checked before operand B (40_cycle_decode.md R65). -/
def decodeRegAB (f : Fetched) (k : Reg → Reg → Instr) : Except DecodeError Instr :=
  match Reg.ofByte? f.a with
  | none => .error (.invalidRegisterIndex f.op .a f.a)
  | some a =>
    match Reg.ofByte? f.b with
    | none => .error (.invalidRegisterIndex f.op .b f.b)
    | some b => .ok (k a b)

/-- The operands of a known mnemonic; bytes the format does not use are ignored (40_cycle_decode.md R63, R65). -/
def decodeOperands (x : Mnemonic) (f : Fetched) : Except DecodeError Instr :=
  match x with
  | .hlt  => .ok .hlt
  | .ret  => .ok .ret
  | .iret => .ok .iret
  | .pra  => decodeRegA f .pra
  | .prn  => decodeRegA f .prn
  | .call => decodeRegA f .call
  | .pop  => decodeRegA f .pop
  | .push => decodeRegA f .push
  | .jmp  => decodeRegA f .jmp
  | .jeq  => decodeRegA f .jeq
  | .jne  => decodeRegA f .jne
  | .ldi  => decodeRegA f (fun a => .ldi a f.b)
  | .st   => decodeRegAB f .st
  | .cmp  => decodeRegAB f .cmp
  | .add  => decodeRegAB f .add
  | .mul  => decodeRegAB f .mul

/-- The decoder under any OPCODE_MAP, in the order of 30_encoding.md R52: opcode, then operand A, then operand B. -/
def decodeWith (m : OpcodeMap) (f : Fetched) : Except DecodeError Instr :=
  match m.lookup f.op with
  | none => .error (.invalidOpcode f.op)
  | some x => decodeOperands x f

/-- The decoder of the machine: the default map. -/
def decode (f : Fetched) : Except DecodeError Instr := decodeWith opcodeMap f

/-- The operand bytes of an instruction, A then B (30_encoding.md R45, R47). -/
def Instr.operandBytes : Instr → List Byte
  | .hlt | .ret | .iret => []
  | .pra a | .prn a | .call a | .pop a | .push a | .jmp a | .jeq a | .jne a => [a.toByte]
  | .ldi a imm => [a.toByte, imm]
  | .st a b | .cmp a b | .add a b | .mul a b => [a.toByte, b.toByte]

/-- The encoder under any OPCODE_MAP: opcode, operand A, operand B at ascending addresses (30_encoding.md R45, R47). -/
def encodeWith (m : OpcodeMap) (i : Instr) : List Byte := m i.mnemonic :: i.operandBytes

/-- The encoder of the machine: the default map. -/
def encode (i : Instr) : List Byte := encodeWith opcodeMap i

/-- Byte `k` of a table word of `nbits` bits: bits `8k+7` down to `8k`, zero above `nbits`. -/
def tableByte (nbits w k : Nat) : Byte := BitVec.ofNat 8 (w % 2 ^ nbits / 2 ^ (8 * k))

/-- The three bytes a table word stands for: the first byte (bits 7:0) lies at the lowest address. -/
def tableFetched (nbits w : Nat) : Fetched :=
  ⟨tableByte nbits w 0, tableByte nbits w 1, tableByte nbits w 2⟩

/-- What the decoder reads from an instruction numbered as spec/opcode_table.json numbers its bits. -/
def decodeTableWord (nbits w : Nat) : Option Instr :=
  match decode (tableFetched nbits w) with
  | .error _ => none
  | .ok i => some i

end Sys2Proof
end

