-- ==== Sys2Proof/Machine/State.lean ====
section
/-! DEFINITION. Everything the spec gives the machine, as plain data, and the state after reset. -/

namespace Sys2Proof.Machine

/-- Where a stack fault arose: an instruction, by its opcode byte, or an interrupt entry, by its line
(60_exceptions.md R104, "opcode or interrupt entry, line i"). -/
inductive FaultSource
  | instruction (opcode : Byte)
  | interruptEntry (line : Line)
deriving DecidableEq, Repr

/-- The fault record (60_exceptions.md R101 to R106): five kinds, "the name is the code" (D25).

A fault's whole effect is `run <- Faulted(kind, info)` (R106), so it is a NEXT state in which `run` holds this record;
`step` never answers `Outcome.fault` (log 2). Safe: the machine stops where the spec says it stops. -/
inductive Fault
  /-- Raised by decoding when the byte at pc is no opcode (R102). Safe. -/
  | invalidOpcode (pc opcode : Byte)
  /-- Raised by decoding when a register operand byte exceeds 7 (R103). Safe. -/
  | invalidRegisterIndex (pc opcode : Byte) (which : OperandSlot) (value : Byte)
  /-- Raised by PUSH, CALL (k = 1) and interrupt entry (k = 9) when `canPush k` fails (R104). Safe. -/
  | stackOverflow (pc : Byte) (source : FaultSource) (sp : Byte) (k : Nat)
  /-- Raised by POP, RET (k = 1) and IRET (k = 9) when `canPop k` fails (R104). Safe. -/
  | stackUnderflow (pc : Byte) (source : FaultSource) (sp : Byte) (k : Nat)
  /-- Raised by interrupt entry when the line's vector byte is 0x00 (R105). Safe. -/
  | interruptVectorMissing (line : Line) (vectorAddress pc : Byte)
deriving DecidableEq, Repr

/-- Why an instruction has no meaning in the model. -/
inductive Refusal
  /-- An arm of `exec` not modelled yet; no arm of this model answers it. Safe: nothing is claimed of such a run. -/
  | notModelled (mnemonic : String)
deriving DecidableEq, Repr

/-- The run state (10_state.md R18). -/
inductive RunState
  | running
  | halted
  | faulted (record : Fault)
deriving DecidableEq, Repr

/-- The register file, eight unsigned bytes (10_state.md R10). Read and written through `Regs.get` and `Regs.set`. -/
structure Regs where
  r0 : Byte
  r1 : Byte
  r2 : Byte
  r3 : Byte
  r4 : Byte
  r5 : Byte   -- IM
  r6 : Byte   -- IS
  r7 : Byte   -- SP
deriving DecidableEq, Repr

/-- Memory as the cells that differ from what an unlisted address reads as; canonical form `Memory.wf` in Ops.lean. -/
structure Memory where
  cells : List Host.Cell
deriving DecidableEq, Repr

/-- A Unicode code point on the output port (00_scope.md R8; the machine emits 0 to 255 only). -/
abbrev CodePoint := Nat

/-- The complete state (10_state.md, introduction and R22). -/
structure State where
  regs   : Regs             -- R10
  pc     : Byte             -- R13
  fl     : Byte             -- R15
  ie     : Bool             -- R17
  run    : RunState         -- R18
  mem    : Memory           -- R20
  output : List CodePoint   -- R21, in execution order, the first emitted first
deriving DecidableEq, Repr

/-- The state right after reset, the machine just created (10_state.md R23; 70_reset_and_hazards.md R131 to R133).
The source states SP, pc and ie; the zeros of x[0] to x[6] and fl are the spec's decisions D3 and D4 (log 4); nothing is
listed in memory (log 3) and nothing has been printed (log 5). -/
def State.reset : State :=
  { regs := ⟨0x00#8, 0x00#8, 0x00#8, 0x00#8, 0x00#8, 0x00#8, 0x00#8, 0xF4#8⟩
    pc := 0x00#8
    fl := 0x00#8
    ie := true
    run := .running
    mem := ⟨[]⟩
    output := [] }

end Sys2Proof.Machine
end

