-- ==== Sys2Proof/Machine/Flags.lean ====
section
/-! DEFINITION. The flags register: its bits, the flag computation of CMP, and the one flag that jumps read. -/

namespace Sys2Proof.Machine

/-- `fl` after a comparison that found the values equal: bit 0 (10_state.md R15). -/
def flagEqual : Byte := 0x01#8

/-- `fl` after a comparison that found a > b: bit 1 (10_state.md R15). -/
def flagGreater : Byte := 0x02#8

/-- `fl` after a comparison that found a < b: bit 2 (10_state.md R15). -/
def flagLess : Byte := 0x04#8

/-- The whole flags register CMP writes; unsigned comparison, bits 7:3 zero (41_alu.md R78; D6, log 14). -/
def compareFlags (a b : Byte) : Byte :=
  if a = b then flagEqual
  else if b.toNat < a.toNat then flagGreater
  else flagLess

/-- `fl[0] == 1`, all that JEQ and JNE look at (44_control.md R94, R95). -/
def equalSet (fl : Byte) : Bool := fl.getLsbD 0

end Sys2Proof.Machine
end

