-- ==== Sys2Proof/Machine/Ops.lean ====
section
/-! DEFINITION. The named operations every meaning is written over: registers, memory, output, the stack, fetch, the program
counter, taking a fault, and taking an interrupt with its return. -/

namespace Sys2Proof.Machine

/-- What a meaning answers. -/
abbrev Result := Host.Outcome State Fault Refusal

/-! ### Registers -/

/-- Read general register `r` (10_state.md R10: no register is hardwired). -/
def Regs.get (g : Regs) (r : Reg) : Byte :=
  match r with
  | .r0 => g.r0
  | .r1 => g.r1
  | .r2 => g.r2
  | .r3 => g.r3
  | .r4 => g.r4
  | .r5 => g.r5
  | .r6 => g.r6
  | .r7 => g.r7

/-- Write general register `r` (10_state.md R10, R11: 5, 6 and 7 are written like any other). -/
def Regs.set (g : Regs) (r : Reg) (v : Byte) : Regs :=
  match r with
  | .r0 => { g with r0 := v }
  | .r1 => { g with r1 := v }
  | .r2 => { g with r2 := v }
  | .r3 => { g with r3 := v }
  | .r4 => { g with r4 := v }
  | .r5 => { g with r5 := v }
  | .r6 => { g with r6 := v }
  | .r7 => { g with r7 := v }

/-- `x[r]`. -/
def State.reg (s : State) (r : Reg) : Byte := s.regs.get r

/-- `x[r] <- v`. -/
def State.setReg (s : State) (r : Reg) (v : Byte) : State := { s with regs := s.regs.set r v }

/-! ### Memory -/

/-- What a cell that memory does not list reads as: "every byte the loader did not supply is 0x00"
(70_reset_and_hazards.md R133; D5, log 3). -/
def unlistedByte : Byte := 0x00#8

/-- The byte a list of cells holds at an address; the list is in rising order, so the search stops past the address. -/
def cellsRead : List Host.Cell → Nat → Byte
  | [], _ => unlistedByte
  | (k, v) :: rest, addr =>
    if addr < k then unlistedByte
    else if addr = k then v
    else cellsRead rest addr

/-- The cells before `rest` when the cell at `addr` is to hold `v`: none where `v` is what an unlisted cell reads as. -/
def cellsCons (addr : Nat) (v : Byte) (rest : List Host.Cell) : List Host.Cell :=
  if v = unlistedByte then rest else (addr, v) :: rest

/-- Replace the byte at an address, keeping the canonical form. -/
def cellsWrite : List Host.Cell → Nat → Byte → List Host.Cell
  | [], addr, v => cellsCons addr v []
  | (k, w) :: rest, addr, v =>
    if addr < k then cellsCons addr v ((k, w) :: rest)
    else if addr = k then cellsCons addr v rest
    else (k, w) :: cellsWrite rest addr v

/-- Addresses from `lo` on, strictly rising, below 256, and no cell equal to what an unlisted one reads as. -/
def cellsWf (lo : Nat) : List Host.Cell → Bool
  | [] => true
  | (k, v) :: rest => decide (lo ≤ k) && decide (k < 256) && decide (v ≠ unlistedByte) && cellsWf (k + 1) rest

/-- The canonical form of memory: equal memories are equal data. -/
def Memory.wf (m : Memory) : Bool := cellsWf 0 m.cells

/-- `MemRead(addr, 1)` (20_memory.md R31). -/
def Memory.read (m : Memory) (addr : Byte) : Byte := cellsRead m.cells addr.toNat

/-- `MemWrite(addr, 1, v)` (20_memory.md R31). -/
def Memory.write (m : Memory) (addr v : Byte) : Memory := ⟨cellsWrite m.cells addr.toNat v⟩

/-- The byte in memory cell `addr`. -/
def State.byteAt (s : State) (addr : Byte) : Byte := s.mem.read addr

/-- Store one byte. -/
def State.storeByte (s : State) (addr v : Byte) : State := { s with mem := s.mem.write addr v }

/-! ### The other state, one update each -/

/-- `pc <- t`; the rule that does so suppresses the advance (40_cycle_decode.md R68). -/
def State.jumpTo (s : State) (t : Byte) : State := { s with pc := t }

/-- `pc <- (pc + len) mod 256`: the automatic advance by the instruction length (10_state.md R14c; D2, log 7). -/
def State.advance (s : State) (len : Nat) : State := { s with pc := s.pc + BitVec.ofNat 8 len }

/-- `fl <- v`, all eight bits. -/
def State.setFl (s : State) (v : Byte) : State := { s with fl := v }

/-- `ie <- b`. -/
def State.setIe (s : State) (b : Bool) : State := { s with ie := b }

/-- `run <- r`. -/
def State.setRun (s : State) (r : RunState) : State := { s with run := r }

/-- `Emit` of each code point, in order (00_scope.md R8). -/
def State.emit (s : State) (cs : List CodePoint) : State := { s with output := s.output ++ cs }

/-! ### The stack (42_stack.md) -/

/-- SP is register 7. -/
def State.sp (s : State) : Byte := s.reg .sp

/-- SP_MAX: the highest SP a push or pop may leave (42_stack.md R82; D7, log 8). -/
def spMax : Nat := 0xF4

/-- `CanPush(k)`: every new SP in 0x00..0xF4 (42_stack.md R82). -/
def State.canPush (s : State) (k : Nat) : Bool :=
  decide (k ≤ s.sp.toNat) && decide (s.sp.toNat ≤ spMax + 1)

/-- `CanPop(k)`: every new SP in 0x01..0xF4 (42_stack.md R82). -/
def State.canPop (s : State) (k : Nat) : Bool := decide (s.sp.toNat + k ≤ spMax)

/-- The cell the next push stores to: SP is lowered first (42_stack.md R80). -/
def State.pushAddress (s : State) : Byte := s.sp - 1#8

/-- `Push(v)`: "decrement SP, then write value at address SP" (42_stack.md R80). -/
def State.push (s : State) (v : Byte) : State := (s.setReg .sp s.pushAddress).storeByte s.pushAddress v

/-- Pushes in a row, the first of the list first. -/
def State.pushAll (s : State) (vs : List Byte) : State := vs.foldl State.push s

/-- The byte `Pop()` returns: "read value at address SP" (42_stack.md R81). -/
def State.top (s : State) : Byte := s.byteAt s.sp

/-- What `Pop()` does to the state: "then increment SP" (42_stack.md R81); the popped cell is not cleared. -/
def State.dropTop (s : State) : State := s.setReg .sp (s.sp + 1#8)

/-- `x[r] <- Pop()`: SP is raised first, so that a pop into SP leaves the popped byte there (42_stack.md R84; D14, log 13). -/
def State.popReg (s : State) (r : Reg) : State := s.dropTop.setReg r s.top

/-- `fl <- Pop()`. -/
def State.popFl (s : State) : State := s.dropTop.setFl s.top

/-- `pc <- Pop()`. -/
def State.popPc (s : State) : State := s.dropTop.jumpTo s.top

/-! ### Fetch -/

/-- Opcode at pc and both operand bytes, always all three, at addresses modulo 256 (40_cycle_decode.md R63). -/
def fetch (s : State) : Fetched :=
  ⟨s.byteAt s.pc, s.byteAt (s.pc + 1#8), s.byteAt (s.pc + 2#8)⟩

/-! ### Taking a fault -/

/-- `raise`: abandon the cycle; the whole effect is `run <- Faulted(kind, info)` (60_exceptions.md R106; D8, log 9). -/
def raise (f : Fault) (s : State) : Result := .next (s.setRun (.faulted f))

/-- The record of a decode fault: the decoder's verdict with the pc (60_exceptions.md R102, R103). -/
def decodeFault (pc : Byte) (e : DecodeError) : Fault :=
  match e with
  | .invalidOpcode op => .invalidOpcode pc op
  | .invalidRegisterIndex op which value => .invalidRegisterIndex pc op which value

/-- Where a stack fault of the instruction being executed arose: its opcode byte, the one at `pc`, which keeps its value
throughout the instruction's rule (60_exceptions.md R104; 10_state.md R13; log 18). -/
def instructionSource (s : State) : FaultSource := .instruction (s.byteAt s.pc)

/-- `CanPush(k)` or `StackOverflow` before anything is pushed (42_stack.md R82). -/
def checkedPush (src : FaultSource) (k : Nat) (s t : State) : Result :=
  if s.canPush k then .next t else raise (.stackOverflow s.pc src s.sp k) s

/-- `CanPop(k)` or `StackUnderflow` before anything is popped (42_stack.md R82). -/
def checkedPop (src : FaultSource) (k : Nat) (s t : State) : Result :=
  if s.canPop k then .next t else raise (.stackUnderflow s.pc src s.sp k) s

/-! ### Interrupts: the check, the entry, the return -/

/-- Bit `i` of a mask of lines. -/
def lineBit (i : Line) : Byte := 1#8 <<< i.val

/-- The eight lines, "in ascending order (lower index = higher priority)" (60_exceptions.md R112). -/
def allLines : List Line := [0, 1, 2, 3, 4, 5, 6, 7]

/-- The least `i` with bit `i` of `pending` set (60_exceptions.md R113). -/
def lowestLine (pending : Byte) : Option Line := allLines.find? (fun i => pending.getLsbD i.val)

/-- The line the check at the start of a cycle serves, if any: IS & IM while `ie` is 1 (60_exceptions.md R111, R113). -/
def interruptCheck (s : State) : Option Line :=
  if s.ie then lowestLine (s.reg .is &&& s.reg .im) else none

/-- The vector table entry of a line: 0xF8 + i (60_exceptions.md R116). -/
def vectorAddress (i : Line) : Byte := 0xF8#8 + BitVec.ofNat 8 i.val

/-- The vector byte that means "no handler" (60_exceptions.md R105; D11, log 10). -/
def missingVector : Byte := 0x00#8

/-- The registers saved by an entry, in the order they are pushed: "registers 0 through 6 in ascending order". -/
def frameRegs : List Reg := [.r0, .r1, .r2, .r3, .r4, .r5, .r6]

/-- The nine bytes of the frame in the order they are pushed: pc, fl, x[0] to x[6] (60_exceptions.md R114, R115). -/
def interruptFrame (s : State) : List Byte := s.pc :: s.fl :: frameRegs.map s.reg

/-- Steps a to d of the entry, the checks passed: `ie` and the pending bit are cleared before the frame is pushed, so the
saved IS has the bit cleared (60_exceptions.md R114). -/
def enterHandler (i : Line) (vector : Byte) (s : State) : State :=
  let cleared := (s.setIe false).setReg .is (s.reg .is &&& ~~~ lineBit i)
  (cleared.pushAll (interruptFrame cleared)).jumpTo vector

/-- `InterruptEntry(i)`: first the vector, then the stack bound, then the entry (60_exceptions.md R107, R114). -/
def interruptEntry (i : Line) (s : State) : Result :=
  let vector := s.byteAt (vectorAddress i)
  if vector = missingVector then raise (.interruptVectorMissing i (vectorAddress i) s.pc) s
  else checkedPush (.interruptEntry i) 9 s (enterHandler i vector s)

/-- The nine pops of a return from interrupt, in reverse of the save order, and `ie <- 1` (60_exceptions.md R118). -/
def interruptReturn (s : State) : State :=
  ((frameRegs.reverse.foldl State.popReg s).popFl.popPc).setIe true

end Sys2Proof.Machine
end

