-- ==== Sys2Proof/Machine/Operands.lean ====
section
/-! DEFINITION. The operand forms of the instruction set and what each stands for.

There are two: a register index and an immediate byte (30_encoding.md R48). Every jump target and every store address comes
from a register. -/

namespace Sys2Proof.Machine

/-- A register operand read as data (30_encoding.md R48). -/
def regOperand (s : State) (r : Reg) : Byte := s.reg r

/-- The immediate of LDI: the whole byte, not extended, scaled or shifted (30_encoding.md R48; D20). -/
def immOperand (imm : Byte) : Byte := imm

/-- A register operand used as a store address: register-indirect (43_data_io.md R88). -/
def storeAddress (s : State) (r : Reg) : Byte := s.reg r

/-- A register operand used as a jump target: every value is legal (44_control.md R99). -/
def jumpTarget (s : State) (r : Reg) : Byte := s.reg r

/-- The return address of CALL: the byte after its operand, modulo 256 (44_control.md R96; D2, log 7). -/
def returnAddress (s : State) : Byte := s.pc + 2#8

end Sys2Proof.Machine
end

