-- ==== Sys2Proof/Machine/Alu.lean ====
section
/-! DEFINITION. The ALU instructions ADD, MUL, CMP (41_alu.md). -/

namespace Sys2Proof.Machine

/-- The 8-bit wrapping sum: the exact sum, narrowed (41_alu.md R75, R76). -/
def aluAdd (a b : Byte) : Byte := wrap (a.toNat + b.toNat)

/-- The 8-bit wrapping product: the exact product, narrowed (41_alu.md R75, R77). -/
def aluMul (a b : Byte) : Byte := wrap (a.toNat * b.toNat)

/-- ADD A, B (41_alu.md R76). No flag is written. -/
def execAdd (a b : Reg) (s : State) : Result :=
  .next ((s.setReg a (aluAdd (regOperand s a) (regOperand s b))).advance 3)

/-- MUL A, B (41_alu.md R77). No flag is written. -/
def execMul (a b : Reg) (s : State) : Result :=
  .next ((s.setReg a (aluMul (regOperand s a) (regOperand s b))).advance 3)

/-- CMP A, B: only the flags register is written, all of it (41_alu.md R78). -/
def execCmp (a b : Reg) (s : State) : Result :=
  .next ((s.setFl (compareFlags (regOperand s a) (regOperand s b))).advance 3)

end Sys2Proof.Machine
end

