-- ==== Sys2Proof/Machine/Control.lean ====
section
/-! DEFINITION. Control transfer: JMP, JEQ, JNE, CALL, RET, HLT (44_control.md). -/

namespace Sys2Proof.Machine

/-- JMP A (44_control.md R93). -/
def execJmp (a : Reg) (s : State) : Result := .next (s.jumpTo (jumpTarget s a))

/-- JEQ A: taken when EQUAL is set, else a no-op that advances (44_control.md R94). -/
def execJeq (a : Reg) (s : State) : Result :=
  if equalSet s.fl then .next (s.jumpTo (jumpTarget s a)) else .next (s.advance 2)

/-- JNE A: taken when EQUAL is clear, else a no-op that advances (44_control.md R95). -/
def execJne (a : Reg) (s : State) : Result :=
  if equalSet s.fl then .next (s.advance 2) else .next (s.jumpTo (jumpTarget s a))

/-- CALL A: the target is read before SP changes, so CALL R7 jumps to the old SP (44_control.md R96). -/
def execCall (a : Reg) (s : State) : Result :=
  checkedPush (instructionSource s) 1 s ((s.push (returnAddress s)).jumpTo (jumpTarget s a))

/-- RET (44_control.md R97). -/
def execRet (s : State) : Result := checkedPop (instructionSource s) 1 s s.popPc

/-- HLT: the run ends, and pc still advances past the HLT byte (44_control.md R98; D13, log 12). -/
def execHlt (s : State) : Result := .next ((s.setRun .halted).advance 1)

end Sys2Proof.Machine
end

