-- ==== Sys2Proof/Machine/DataIo.lean ====
section
/-! DEFINITION. Data movement and output: LDI, ST, PRN, PRA (43_data_io.md). -/

namespace Sys2Proof.Machine

/-- The decimal digits of a byte value, most significant first, no leading zeros, `0` for zero (43_data_io.md R89; D15, log 15). -/
def decimalDigits (n : Nat) : List Nat :=
  if n < 10 then [n]
  else if n < 100 then [n / 10, n % 10]
  else [n / 100, n / 10 % 10, n % 10]

/-- Digit `d` is the code point U+0030 + d (00_scope.md R8). -/
def digitCodePoint (d : Nat) : CodePoint := 0x30 + d

/-- The newline that ends a printed number: U+000A (00_scope.md R8; D15). -/
def newline : CodePoint := 0x0A

/-- What PRN emits for a value (43_data_io.md R89). -/
def prnCodePoints (v : Byte) : List CodePoint := (decimalDigits v.toNat).map digitCodePoint ++ [newline]

/-- LDI A, imm (43_data_io.md R87). -/
def execLdi (a : Reg) (imm : Byte) (s : State) : Result :=
  .next ((s.setReg a (immOperand imm)).advance 3)

/-- ST A, B: `Memory[x[A]] := x[B]` (43_data_io.md R88). -/
def execSt (a b : Reg) (s : State) : Result :=
  .next ((s.storeByte (storeAddress s a) (regOperand s b)).advance 3)

/-- PRN A: the value as a line of decimal text (43_data_io.md R89). -/
def execPrn (a : Reg) (s : State) : Result :=
  .next ((s.emit (prnCodePoints (regOperand s a))).advance 2)

/-- PRA A: one code point, no newline (43_data_io.md R90). -/
def execPra (a : Reg) (s : State) : Result :=
  .next ((s.emit [(regOperand s a).toNat]).advance 2)

end Sys2Proof.Machine
end

