-- ==== Sys2Proof/Machine/Interrupts.lean ====
section
/-! DEFINITION. The return from interrupt, IRET (60_exceptions.md section 4). The check and the entry are in Ops.lean. -/

namespace Sys2Proof.Machine

/-- IRET: no check that an interrupt is in progress (60_exceptions.md R118; D24, log 17). -/
def execIret (s : State) : Result := checkedPop (instructionSource s) 9 s (interruptReturn s)

end Sys2Proof.Machine
end

