-- ==== Sys2Proof/Machine/Stack.lean ====
section
/-! DEFINITION. The stack instructions PUSH and POP (42_stack.md section 2). -/

namespace Sys2Proof.Machine

/-- PUSH A: the operand is read before SP changes, so PUSH R7 stores the old SP (42_stack.md R83; D14, log 13). -/
def execPush (a : Reg) (s : State) : Result :=
  checkedPush (instructionSource s) 1 s ((s.push (regOperand s a)).advance 2)

/-- POP A: POP R7 leaves SP at the popped byte (42_stack.md R84; D14, log 13). -/
def execPop (a : Reg) (s : State) : Result :=
  checkedPop (instructionSource s) 1 s ((s.popReg a).advance 2)

end Sys2Proof.Machine
end

