-- ==== Sys2Proof/Machine/Dispatch.lean ====
section
/-! DEFINITION. One arm per instruction (40_cycle_decode.md R66). -/

namespace Sys2Proof.Machine

def exec (i : Instr) (s : State) : Host.Outcome State Fault Refusal :=
  match i with
  | .hlt => Sys2Proof.Machine.execHlt s
  | .ret => Sys2Proof.Machine.execRet s
  | .iret => Sys2Proof.Machine.execIret s
  | .pra a => Sys2Proof.Machine.execPra a s
  | .prn a => Sys2Proof.Machine.execPrn a s
  | .call a => Sys2Proof.Machine.execCall a s
  | .pop a => Sys2Proof.Machine.execPop a s
  | .push a => Sys2Proof.Machine.execPush a s
  | .jmp a => Sys2Proof.Machine.execJmp a s
  | .jeq a => Sys2Proof.Machine.execJeq a s
  | .jne a => Sys2Proof.Machine.execJne a s
  | .ldi a imm => Sys2Proof.Machine.execLdi a imm s
  | .st a b => Sys2Proof.Machine.execSt a b s
  | .cmp a b => Sys2Proof.Machine.execCmp a b s
  | .add a b => Sys2Proof.Machine.execAdd a b s
  | .mul a b => Sys2Proof.Machine.execMul a b s

end Sys2Proof.Machine
end

