-- ==== Sys2Proof/Machine/Cycle.lean ====
section
/-! DEFINITION. One cycle of the machine under any OPCODE_MAP (40_cycle_decode.md R60; 30_encoding.md R49, D1: OPEN).

The map is configuration, not state (00_scope.md section 6), so it is an argument here; Step.lean fixes it to the default. -/

namespace Sys2Proof.Machine

/-- Phases 2 to 6 of a cycle: fetch, decode, validate, execute, advance. A rejected triple raises the decoder's fault
(40_cycle_decode.md R63 to R67); the advance of phase 6 is part of each meaning (log 20). -/
def fetchExecuteWith (m : OpcodeMap) (s : State) : Result :=
  match decodeWith m (fetch s) with
  | .error e => raise (decodeFault s.pc e) s
  | .ok i => exec i s

/-- One cycle (40_cycle_decode.md R60 to R71): nothing when stopped; else an interrupt entry or one instruction, never both. -/
def stepWith (m : OpcodeMap) (s : State) : Result :=
  match s.run with
  | .halted => .next s
  | .faulted _ => .next s
  | .running =>
    match interruptCheck s with
    | some i => interruptEntry i s
    | none => fetchExecuteWith m s

/-- Phases 2 to 6 under the default map. -/
def fetchExecute (s : State) : Result := fetchExecuteWith opcodeMap s

end Sys2Proof.Machine
end

