-- ==== Sys2Proof/Machine/Step.lean ====
section
/-! DEFINITION. The step of the machine (40_cycle_decode.md R60), and where the next instruction's bytes lie. -/

namespace Sys2Proof.Machine

/-- One cycle of the machine: the cycle of Cycle.lean under the default OPCODE_MAP (30_encoding.md R49; log 1). -/
def step (s : State) : Host.Outcome State Fault Refusal := stepWith opcodeMap s

/-- The instruction of a table word stored where a cycle fetches: at pc, pc+1 and pc+2 modulo 256, the bytes above `nbits`
zero. Nothing else changes, so the next step runs it when the machine is running and no interrupt is taken, as after reset. -/
def State.withFetchWord (s : State) (nbits w : Nat) : State :=
  ((s.storeByte s.pc (tableByte nbits w 0)).storeByte (s.pc + 1#8) (tableByte nbits w 1)).storeByte
    (s.pc + 2#8) (tableByte nbits w 2)

end Sys2Proof.Machine
end

