-- ==== Sys2Proof/Machine/HostActions.lean ====
section
/-! DEFINITION. What the other two agents do between cycles: the interrupt source raises a line; the host loads, resets,
drives and inspects (00_scope.md R5, R7, R9; 70_reset_and_hazards.md R131, R133, R135). -/

namespace Sys2Proof.Machine

/-- `raise_interrupt(i)`: `x[6] <- x[6] | (1 << i)` and nothing else, accepted in every run state
(00_scope.md R7; 40_cycle_decode.md R61). -/
def raiseInterrupt (i : Line) (s : State) : State := s.setReg .is (s.reg .is ||| lineBit i)

/-- `reset`: the block's state of 10_state.md R23; memory and the output sequence are not touched
(70_reset_and_hazards.md R131; D23). -/
def hostReset (s : State) : State := { State.reset with mem := s.mem, output := s.output }

/-- The loader: bytes at ascending addresses from `addr` on; bytes past address 255 are not placed, since an image has at
most 256 bytes (70_reset_and_hazards.md R133). -/
def loadFrom (addr : Nat) (image : List Byte) (m : Memory) : Memory :=
  match image with
  | [] => m
  | v :: rest => if addr < 256 then loadFrom (addr + 1) rest (m.write (BitVec.ofNat 8 addr) v) else m

/-- The machine at its first cycle with MEM_INIT given by a program image at 0 upward, 0x00 elsewhere
(70_reset_and_hazards.md R133, R134). -/
def State.boot (image : List Byte) : State := { State.reset with mem := loadFrom 0 image State.reset.mem }

/-- `halted()`: true exactly when the run state is not Running (00_scope.md R9c). -/
def halted (s : State) : Bool :=
  match s.run with
  | .running => false
  | .halted => true
  | .faulted _ => true

/-- The fault report of a faulted machine (00_scope.md R9d). -/
def faultRecord (s : State) : Option Fault :=
  match s.run with
  | .running => none
  | .halted => none
  | .faulted f => some f

/-- `run` for at most `n` cycles under an OPCODE_MAP: `while not halted(): Step()` (40_cycle_decode.md R69). -/
def runCycles (m : OpcodeMap) : Nat → State → Host.Outcome State Fault Refusal
  | 0, s => .next s
  | n + 1, s =>
    if halted s then .next s
    else
      match stepWith m s with
      | .next t => runCycles m n t
      | .fault f => .fault f
      | .refused r => .refused r

/-- One action of one agent; actions never overlap in time (00_scope.md R5; D16, log 6). -/
inductive HostEvent
  | cycle              -- the host lets the engine run one cycle
  | raise (i : Line)   -- the interrupt source raises line i
  | reset              -- the host resets the block
deriving DecidableEq, Repr

/-- The effect of one action on the machine under an OPCODE_MAP. -/
def perform (m : OpcodeMap) (e : HostEvent) (s : State) : Host.Outcome State Fault Refusal :=
  match e with
  | .cycle => stepWith m s
  | .raise i => .next (raiseInterrupt i s)
  | .reset => .next (hostReset s)

/-- A run under an OPCODE_MAP: the actions in the order they happen. -/
def performAll (m : OpcodeMap) : List HostEvent → State → Host.Outcome State Fault Refusal
  | [], s => .next s
  | e :: rest, s =>
    match perform m e s with
    | .next t => performAll m rest t
    | .fault f => .fault f
    | .refused r => .refused r

end Sys2Proof.Machine
end

