-- ==== Sys2Proof/Safety.lean ====
section
/-! DEFINITION. The terms claims about the machine use: frames, the invariant, safe states, and sequences of instructions. -/

namespace Sys2Proof.Machine

/-! ### Frames -/

/-- Every general register but the listed ones reads as before. -/
def SameRegsBut (s t : State) (rs : List Reg) : Prop := ∀ r, r ∉ rs → t.reg r = s.reg r

/-- Every memory byte but those at the listed addresses reads as before. -/
def SameBytesBut (s t : State) (addrs : List Byte) : Prop := ∀ a, a ∉ addrs → t.byteAt a = s.byteAt a

/-- The general registers an instruction may write: the "writes" column of the table in 10_state.md R12. -/
def writtenRegs : Instr → List Reg
  | .hlt | .pra _ | .prn _ | .jmp _ | .jeq _ | .jne _ | .st _ _ | .cmp _ _ => []
  | .ldi a _ | .add a _ | .mul a _ => [a]
  | .push _ | .call _ | .ret => [.sp]
  | .pop a => [.sp, a]
  | .iret => [.r0, .r1, .r2, .r3, .r4, .r5, .r6, .r7]

/-- Line `i` is pending and enabled (60_exceptions.md R108, R110). -/
def pendingEnabled (s : State) (i : Line) : Bool := (s.reg .is).getLsbD i.val && (s.reg .im).getLsbD i.val

/-! ### Illegal operands -/

/-- A cycle that fetches the opcode of `x` with an illegal register operand faults on it, A before B, and changes nothing
but the run state (40_cycle_decode.md R65; 60_exceptions.md R103, R106). -/
def RaisesOnIllegalOperands (x : Mnemonic) : Prop :=
  ∀ s : State, s.run = .running → interruptCheck s = none → s.byteAt s.pc = opcodeMap x →
    (x.format.hasRegA = true → 7 < (s.byteAt (s.pc + 1#8)).toNat →
      step s = .next (s.setRun (.faulted
        (.invalidRegisterIndex s.pc (opcodeMap x) .a (s.byteAt (s.pc + 1#8)))))) ∧
    (x.format.hasRegB = true → (s.byteAt (s.pc + 1#8)).toNat ≤ 7 → 7 < (s.byteAt (s.pc + 2#8)).toNat →
      step s = .next (s.setRun (.faulted
        (.invalidRegisterIndex s.pc (opcodeMap x) .b (s.byteAt (s.pc + 2#8))))))

/-- A cycle that fetches the opcode of `x` with a register operand outside 0 to 7 ends in the fault InvalidRegisterIndex
(60_exceptions.md R103), without the details of the record. It is said of the bytes the cycle fetched; that `fetch` takes their
addresses modulo 256 is the spec's choice (D2; log 7). -/
def IllegalOperandsAreFaults (x : Mnemonic) : Prop :=
  ∀ s : State, s.run = .running → interruptCheck s = none → (fetch s).op = opcodeMap x →
    (x.format.hasRegA = true ∧ 7 < (fetch s).a.toNat) ∨ (x.format.hasRegB = true ∧ 7 < (fetch s).b.toNat) →
    ∃ t pc op which value, step s = .next t ∧ t.run = .faulted (.invalidRegisterIndex pc op which value)

/-! ### The invariant -/

/-- A stack fault's source is what was about to run: the instruction at pc, or the entry of a line that is still pending,
enabled and globally enabled (60_exceptions.md R104). -/
def SourceTrue (s : State) (src : FaultSource) : Prop :=
  match src with
  | .instruction op => op = s.byteAt s.pc
  | .interruptEntry i => s.ie = true ∧ pendingEnabled s i = true

/-- A fault record is about the state it stands in: since a fault changes nothing (60_exceptions.md R106), its pc, its bytes
and its stack pointer are still those of the state, and the condition that raised it still holds (R102 to R105). -/
def RecordTrue (m : OpcodeMap) (s : State) (f : Fault) : Prop :=
  match f with
  | .invalidOpcode pc op => pc = s.pc ∧ op = s.byteAt s.pc ∧ ∀ x, m x ≠ op
  | .invalidRegisterIndex pc op which value =>
    pc = s.pc ∧ op = s.byteAt s.pc ∧ 7 < value.toNat ∧
      value = s.byteAt (s.pc + match which with | .a => 1#8 | .b => 2#8)
  | .stackOverflow pc src sp k => pc = s.pc ∧ sp = s.sp ∧ s.canPush k = false ∧ SourceTrue s src
  | .stackUnderflow pc src sp k => pc = s.pc ∧ sp = s.sp ∧ s.canPop k = false ∧ SourceTrue s src
  | .interruptVectorMissing i addr pc =>
    pc = s.pc ∧ addr = vectorAddress i ∧ s.byteAt addr = missingVector ∧ s.ie = true ∧ pendingEnabled s i = true

/-- The fault record of a faulted state is true of it. -/
def FaultRecordTrue (m : OpcodeMap) (s : State) : Prop := ∀ f, s.run = .faulted f → RecordTrue m s f

/-- Every code point on the output port is in 0 to 255 (00_scope.md R8). -/
def OutputInRange (s : State) : Prop := ∀ c ∈ s.output, c < 256

/-- What every run under an OPCODE_MAP keeps: memory in canonical form, output in range, and a truthful fault record. -/
structure State.Inv (s : State) (m : OpcodeMap) : Prop where
  mem : s.mem.wf = true
  output : OutputInRange s
  record : FaultRecordTrue m s

/-- A safe state: no fault has been taken; "a faulted run is never a successful run" (60_exceptions.md R106). -/
def State.safe (s : State) : Bool := (faultRecord s).isNone

/-! ### Sequences -/

/-- Instructions executed one after another by their meanings. -/
def execAll : List Instr → State → Result
  | [], s => .next s
  | i :: rest, s =>
    match exec i s with
    | .next t => execAll rest t
    | .fault f => .fault f
    | .refused r => .refused r

end Sys2Proof.Machine
end

