-- ==== Sys2Proof/Certificates/Slice0/Obligations.lean ====
section
/-! DEFINITION. The statements for the provers, made from the spec's numbered rules.

Where a statement rests on a decision of 92_eei_decisions.md (D<n>: the spec's own choice, not its source's words), its
docstring names the decision and the log entry. A fault is a NEXT state whose run state is `faulted` (log 2). -/

open Sys2Proof Sys2Proof.Machine

/-! ### Encoding and decoding -/

/-- Words written out from the formats of R47, one or more for every family, decode to their instructions.
The opcode byte values are the spec's default map (D1, K1; log 1). Two triples are rejected by name: 0x00 is no opcode, and of
two register operands above 7 it is A that is reported (A before B: D9, log 9). -/
def Obligations.WrittenOutWordsDecode : Prop :=
  decode ⟨0xA8#8, 0x00#8, 0x01#8⟩ = .ok (.add .r0 .r1) ∧
  decode ⟨0xA0#8, 0x02#8, 0x03#8⟩ = .ok (.cmp .r2 .r3) ∧
  decode ⟨0x4D#8, 0x07#8, 0xFF#8⟩ = .ok (.push .r7) ∧
  decode ⟨0x99#8, 0x00#8, 0x08#8⟩ = .ok (.ldi .r0 0x08#8) ∧
  decode ⟨0x43#8, 0x00#8, 0x01#8⟩ = .ok (.prn .r0) ∧
  decode ⟨0x48#8, 0x01#8, 0x99#8⟩ = .ok (.call .r1) ∧
  decode ⟨0x01#8, 0xFF#8, 0xFF#8⟩ = .ok .hlt ∧
  decode ⟨0x0B#8, 0x00#8, 0x00#8⟩ = .ok .iret ∧
  decode ⟨0x00#8, 0x00#8, 0x00#8⟩ = .error (.invalidOpcode 0x00#8) ∧
  decode ⟨0xA8#8, 0x09#8, 0x0A#8⟩ = .error (.invalidRegisterIndex 0xA8#8 .a 0x09#8)

/-- The default map meets the two constraints of R49, so 240 of the 256 bytes are illegal opcodes, 0x00 and every byte with
bits 7:6 = 11 among them. The map's values are the spec's choice (D1, D18; log 1, log 16). -/
def Obligations.DefaultOpcodeMapIsLegal : Prop :=
  opcodeMap.Legal ∧
  ((List.range 256).filter (fun n => (opcodeMap.lookup (BitVec.ofNat 8 n)).isNone)).length = 240 ∧
  opcodeMap.lookup 0x00#8 = none ∧
  ∀ op : Byte, topTwoBits op = 3 → opcodeMap.lookup op = none

/-- R46, under every OPCODE_MAP that meets the constraints: the top two bits of the opcode are the number of operand bytes,
the length is one more, three operand bytes never occur, and exactly five instructions are three bytes long. -/
def Obligations.LengthIsTopTwoBitsPlusOne : Prop :=
  ∀ m : OpcodeMap, m.Legal → ∀ i : Instr,
    (encodeWith m i).head? = some (m i.mnemonic) ∧
    (encodeWith m i).length = topTwoBits (m i.mnemonic) + 1 ∧
    topTwoBits (m i.mnemonic) ≠ 3 ∧
    ((encodeWith m i).length = 3 ↔ i.mnemonic ∈ [Mnemonic.ldi, .st, .add, .mul, .cmp])

/-- Decode and encode agree, for every instruction with every operand value, under every OPCODE_MAP that meets the
constraints, whatever bytes follow in memory. -/
def Obligations.DecodeOfEncodeIsTheInstruction : Prop :=
  ∀ m : OpcodeMap, m.Legal → ∀ (i : Instr) (rest : List Byte),
    decodeWith m (Fetched.ofBytes (encodeWith m i ++ rest)) = .ok i

/-- The other direction, under every map: the bytes an instruction was decoded from begin with its encoding, so every
instruction has one spelling. -/
def Obligations.DecodedBytesBeginWithTheEncoding : Prop :=
  ∀ (m : OpcodeMap) (f : Fetched) (i : Instr), decodeWith m f = .ok i → encodeWith m i <+: f.bytes

/-- R52: every triple yields one instruction with legal operands or one named fault, decided in the order opcode, operand A,
operand B; the instruction has the looked-up mnemonic and the operand bytes counted by the opcode's top two bits. -/
def Obligations.DecoderIsTotalAndOrdered : Prop :=
  ∀ m : OpcodeMap, m.Legal → ∀ f : Fetched,
    ((∀ x, m x ≠ f.op) → decodeWith m f = .error (.invalidOpcode f.op)) ∧
    (∀ x, m x = f.op → x.format.hasRegA = true → 7 < f.a.toNat →
      decodeWith m f = .error (.invalidRegisterIndex f.op .a f.a)) ∧
    (∀ x, m x = f.op → x.format.hasRegB = true → f.a.toNat ≤ 7 → 7 < f.b.toNat →
      decodeWith m f = .error (.invalidRegisterIndex f.op .b f.b)) ∧
    (∀ x, m x = f.op → (x.format.hasRegA = true → f.a.toNat ≤ 7) → (x.format.hasRegB = true → f.b.toNat ≤ 7) →
      ∃ i, decodeWith m f = .ok i ∧ i.mnemonic = x ∧ i.operandBytes = [f.a, f.b].take (topTwoBits f.op))

/-- The well-formed tuples are exactly the ones the decoder accepts. -/
def Obligations.WellFormedExactlyWhenDecodable : Prop :=
  ∀ m : OpcodeMap, m.Legal → ∀ f : Fetched, f.wellFormed m = true ↔ ∃ i, decodeWith m f = .ok i

/-- The speculative reads are unobservable: bytes past an instruction's own operands do not change what is decoded. -/
def Obligations.BytesPastTheOperandsAreIgnored : Prop :=
  ∀ (m : OpcodeMap) (f : Fetched) (i : Instr) (a' b' : Byte), decodeWith m f = .ok i →
    (i.operandBytes.length = 0 → decodeWith m ⟨f.op, a', b'⟩ = .ok i) ∧
    (i.operandBytes.length = 1 → decodeWith m ⟨f.op, f.a, b'⟩ = .ok i)

/-! ### Memory -/

/-- R31: a read returns the value of the most recent write to that cell, or, if there was none, the cell's initial content;
a write changes no other cell. Memory is in its canonical form, which every write keeps. -/
def Obligations.ReadReturnsTheMostRecentWrite : Prop :=
  ∀ (m : Memory) (writes : List (Byte × Byte)), m.wf = true →
    (writes.foldl (fun n w => n.write w.1 w.2) m).wf = true ∧
    ∀ a : Byte, (writes.foldl (fun n w => n.write w.1 w.2) m).read a =
      match writes.reverse.find? (fun w => decide (w.1 = a)) with
      | some w => w.2
      | none => m.read a

/-- A boot image of at most 256 bytes lies at 0 upward and every other cell is 0x00; the registers, pc, flags and run state
are those of reset. The zero of unloaded cells is the spec's choice (D5; log 3). -/
def Obligations.BootPlacesTheImage : Prop :=
  ∀ image : List Byte, image.length ≤ 256 →
    (State.boot image).mem.wf = true ∧
    (∀ (k : Nat) (h : k < image.length), (State.boot image).byteAt (BitVec.ofNat 8 k) = image[k]) ∧
    (∀ a : Byte, image.length ≤ a.toNat → (State.boot image).byteAt a = 0x00#8) ∧
    ({ State.boot image with mem := State.reset.mem } : State) = State.reset

/-- A store is seen by the next fetch: after ST to one of the three bytes at the new pc (addresses modulo 256: D2, log 7), the
fetch reads the stored byte. -/
def Obligations.FetchSeesTheStoredByte : Prop :=
  ∀ (a b : Reg) (s : State), s.mem.wf = true →
    ∃ t, exec (.st a b) s = .next t ∧
      (s.reg a = t.pc → (fetch t).op = s.reg b) ∧
      (s.reg a = t.pc + 1#8 → (fetch t).a = s.reg b) ∧
      (s.reg a = t.pc + 2#8 → (fetch t).b = s.reg b)

/-! ### The cycle -/

/-- A running machine with no interrupt to serve runs the instruction its bytes decode to: `step` is `exec` of it, and
nothing else. Said of the three fetched bytes, and of an instruction whose encoding lies at pc (modulo 256: D2, log 7). The
same under every OPCODE_MAP: `EveryOpcodeMapDrivesTheSameMachine`. -/
def Obligations.StepRunsTheDecodedInstruction : Prop :=
  ∀ (s : State) (i : Instr), s.run = .running → interruptCheck s = none →
    (decode (fetch s) = .ok i → step s = exec i s) ∧
    (encode i <+: [s.byteAt s.pc, s.byteAt (s.pc + 1#8), s.byteAt (s.pc + 2#8)] → step s = exec i s)

/-- Every state has exactly one outcome, and it is a next state: no cycle ends in `Outcome.fault` or `Outcome.refused`
(93_implementation_defined.md part 1; log 2). -/
def Obligations.EveryStepAnswersANextState : Prop := ∀ s : State, ∃ t, step s = .next t

/-- A halted or faulted machine's cycle changes nothing; a line raised then is still latched in IS, with no further
consequence (the spec's reading, D12; log 11). -/
def Obligations.StoppedMachineOnlyLatchesRaises : Prop :=
  ∀ (s : State) (i : Line), s.run ≠ .running →
    step s = .next s ∧
    (raiseInterrupt i s).reg .is = s.reg .is ||| lineBit i ∧
    step (raiseInterrupt i s) = .next (raiseInterrupt i s)

/-- A byte at pc that is no opcode raises InvalidOpcode with that byte and pc, and nothing but the run state changes
(that the stop leaves everything else is the spec's choice, D8; log 9). -/
def Obligations.IllegalOpcodeFaults : Prop :=
  ∀ s : State, s.run = .running → interruptCheck s = none → (∀ x, opcodeMap x ≠ s.byteAt s.pc) →
    step s = .next (s.setRun (.faulted (.invalidOpcode s.pc (s.byteAt s.pc))))

/-- Every instruction with a register operand faults when its operand byte exceeds 7, A checked before B, whatever the
flags and the stack pointer are (D8, D9, D10; log 9; D20, log 16), operands lying at pc+1 and pc+2 modulo 256 (D2, log 7). -/
def Obligations.IllegalRegisterOperandFaults : Prop := ∀ x : Mnemonic, RaisesOnIllegalOperands x

/-- Faults are precise: a cycle of a running machine that ends faulted changed nothing but the run state (D8; log 9). -/
def Obligations.FaultsArePrecise : Prop :=
  ∀ (s t : State) (f : Fault), s.run = .running → step s = .next t → t.run = .faulted f → t = s.setRun (.faulted f)

/-- Halted is entered only by executing HLT, from a running machine with no interrupt to serve. -/
def Obligations.HaltedOnlyByHlt : Prop :=
  ∀ s t : State, s.run ≠ .halted → step s = .next t → t.run = .halted →
    s.run = .running ∧ interruptCheck s = none ∧ decode (fetch s) = .ok .hlt

/-- How pc changes, exactly one way for each instruction that does not fault: the target of a taken transfer, else the
advance by the length its opcode's top two bits give. After a fault pc is as before. The wrap of the advance modulo 256 is
the spec's choice (D2; log 7), as is the advance past HLT (D13; log 12) and that a fault leaves pc
(D8; log 9). -/
def Obligations.PcChangesInExactlyOneWay : Prop :=
  ∀ (i : Instr) (s t : State), s.run = .running → exec i s = .next t →
    (∀ f, t.run = .faulted f → t.pc = s.pc) ∧
    ((∀ f, t.run ≠ .faulted f) →
      t.pc = match i with
        | .jmp a | .call a => s.reg a
        | .jeq a => if s.fl.getLsbD 0 = true then s.reg a else s.pc + 2#8
        | .jne a => if s.fl.getLsbD 0 = false then s.reg a else s.pc + 2#8
        | .ret => s.byteAt s.sp
        | .iret => s.byteAt (s.sp + 8#8)
        | .hlt | .pra _ | .prn _ | .pop _ | .push _ | .ldi _ _ | .st _ _ | .cmp _ _ | .add _ _ | .mul _ _ =>
          s.pc + BitVec.ofNat 8 (topTwoBits (opcodeMap i.mnemonic) + 1))

/-! ### Who writes what -/

/-- R16: `fl` is written by CMP and IRET (the whole register, IRET from the stack) only; it is read by JEQ and JNE (bit 0
only) and by interrupt entry (the whole register, pushed) only. Reading is said by a second run from a state that differs in
`fl` alone: every other instruction does the same and leaves the difference as it was, CMP and IRET overwrite it, and JEQ
and JNE depend on bit 0 only. -/
def Obligations.FlagsWritersAndReaders : Prop :=
  (∀ (i : Instr) (s t : State), exec i s = .next t → t.fl ≠ s.fl → i = .iret ∨ ∃ a b, i = .cmp a b) ∧
  (∀ (i : Line) (s t : State), interruptEntry i s = .next t → t.fl = s.fl) ∧
  (∀ (i : Line) (s t : State), s.mem.wf = true → s.run = .running → interruptEntry i s = .next t → t.run = .running →
    t.byteAt (s.sp - 2#8) = s.fl) ∧
  (∀ s t : State, s.run = .running → exec .iret s = .next t → t.run = .running → t.fl = s.byteAt (s.sp + 7#8)) ∧
  (∀ (i : Instr) (s t : State) (v : Byte), exec i s = .next t →
    (∀ a, i ≠ .jeq a) → (∀ a, i ≠ .jne a) → (∀ a b, i ≠ .cmp a b) → i ≠ .iret →
    exec i (s.setFl v) = .next (t.setFl v)) ∧
  (∀ (a b : Reg) (s : State) (v : Byte), exec (.cmp a b) (s.setFl v) = exec (.cmp a b) s) ∧
  (∀ (s : State) (v : Byte), s.canPop 9 = true → exec .iret (s.setFl v) = exec .iret s) ∧
  (∀ (a : Reg) (s t : State) (v : Byte), v.getLsbD 0 = s.fl.getLsbD 0 →
    (exec (.jeq a) s = .next t → exec (.jeq a) (s.setFl v) = .next (t.setFl v)) ∧
    (exec (.jne a) s = .next t → exec (.jne a) (s.setFl v) = .next (t.setFl v)))

/-- `ie` changes in a cycle only from 1 to 0 by an interrupt entry and from 0 to 1 by IRET, and no instruction's effect
depends on it: run from a state that differs in `ie` alone, every instruction but IRET does the same and leaves the
difference as it was; an IRET that completes does the same and overwrites it, and one that faults leaves it as it was.
(The bit's place outside every register is the spec's choice, D19, and so is IRET with `ie` already 1, D24; log 17.) -/
def Obligations.IeChangesOnlyByEntryAndIret : Prop :=
  (∀ s t : State, step s = .next t → t.ie ≠ s.ie →
    (s.ie = true ∧ t.ie = false ∧ ∃ i, interruptCheck s = some i) ∨
    (s.ie = false ∧ t.ie = true ∧ decode (fetch s) = .ok .iret)) ∧
  (∀ (i : Instr) (s t : State) (b : Bool), exec i s = .next t → i ≠ .iret →
    exec i (s.setIe b) = .next (t.setIe b)) ∧
  (∀ (s : State) (b : Bool), s.canPop 9 = true → exec .iret (s.setIe b) = exec .iret s) ∧
  (∀ (s t : State) (b : Bool), s.canPop 9 = false → exec .iret s = .next t →
    exec .iret (s.setIe b) = .next (t.setIe b))

/-- Memory changes in a cycle only by an interrupt entry or by ST, PUSH or CALL; POP, RET and IRET only read it. -/
def Obligations.MemoryWritersAreStPushCallAndEntry : Prop :=
  ∀ s t : State, step s = .next t → t.mem ≠ s.mem →
    (∃ i, interruptCheck s = some i) ∨
    (∃ a b, decode (fetch s) = .ok (.st a b)) ∨
    (∃ a, decode (fetch s) = .ok (.push a)) ∨
    (∃ a, decode (fetch s) = .ok (.call a))

/-- R21: the output sequence grows by PRN and PRA only and is never read by the block: a run from a state with another
output does the same and adds the same code points. -/
def Obligations.OutputGrowsOnlyByPrnAndPraAndIsNeverRead : Prop :=
  ∀ s t : State, step s = .next t →
    ∃ added : List CodePoint, t.output = s.output ++ added ∧
      (added ≠ [] → interruptCheck s = none ∧
        ∃ a, decode (fetch s) = .ok (.prn a) ∨ decode (fetch s) = .ok (.pra a)) ∧
      ∀ other : List CodePoint, step { s with output := other } = .next { t with output := other ++ added }

/-- The register frame of the whole machine: an instruction changes only the registers the table of R12 lists for it, an
interrupt entry only IS and SP, a raise only IS. -/
def Obligations.RegistersChangeOnlyAsTheTableSays : Prop :=
  (∀ (i : Instr) (s t : State), exec i s = .next t → SameRegsBut s t (writtenRegs i)) ∧
  (∀ (i : Line) (s t : State), interruptEntry i s = .next t → SameRegsBut s t [.is, .sp]) ∧
  (∀ (i : Line) (s : State), SameRegsBut s (raiseInterrupt i s) [.is])

/-! ### The ALU -/

/-- R76: ADD writes the sum modulo 256 to register A and nothing else but pc, which advances by 3 (at the top of memory:
`PcChangesInExactlyOneWay`); no flag is written, no sum faults, and an operand above 7 is InvalidRegisterIndex. The operand bytes are the fetched ones:
that at pc 0xFE and 0xFF they lie modulo 256 is the spec's choice (D2; log 7). -/
def Obligations.AddWritesTheWrappedSum : Prop :=
  (∀ (a b : Reg) (s : State), ∃ t, exec (.add a b) s = .next t ∧
    (t.reg a).toNat = ((s.reg a).toNat + (s.reg b).toNat) % 256 ∧ SameRegsBut s t [a] ∧
    (s.pc.toNat ≤ 252 → t.pc.toNat = s.pc.toNat + 3) ∧ t.fl = s.fl ∧ t.ie = s.ie ∧ t.run = s.run ∧ t.output = s.output ∧ SameBytesBut s t []) ∧
  IllegalOperandsAreFaults .add

/-- R77: MUL writes the low eight bits of the unsigned product to register A and nothing else but pc, which advances by 3;
no flag is written, no product faults, and an operand above 7 is InvalidRegisterIndex. The operand bytes are the fetched ones:
that at pc 0xFE and 0xFF they lie modulo 256 is the spec's choice (D2; log 7). -/
def Obligations.MulWritesTheWrappedProduct : Prop :=
  (∀ (a b : Reg) (s : State), ∃ t, exec (.mul a b) s = .next t ∧
    (t.reg a).toNat = ((s.reg a).toNat * (s.reg b).toNat) % 256 ∧ SameRegsBut s t [a] ∧
    (s.pc.toNat ≤ 252 → t.pc.toNat = s.pc.toNat + 3) ∧ t.fl = s.fl ∧ t.ie = s.ie ∧ t.run = s.run ∧ t.output = s.output ∧ SameBytesBut s t []) ∧
  IllegalOperandsAreFaults .mul

/-- CMP writes all of `fl`: 1 if equal, 2 if x[a] > x[b], 4 if x[a] < x[b], unsigned; nothing else changes but pc.
That bits 7:3 become 0 (D6; log 14) and that the advance wraps modulo 256 (D2; log 7) are the spec's choices. -/
def Obligations.CmpSetsExactlyOneFlag : Prop :=
  ∀ (a b : Reg) (s : State), ∃ t, exec (.cmp a b) s = .next t ∧
    (s.reg a = s.reg b → t.fl = 0b00000001#8) ∧
    ((s.reg b).toNat < (s.reg a).toNat → t.fl = 0b00000010#8) ∧
    ((s.reg a).toNat < (s.reg b).toNat → t.fl = 0b00000100#8) ∧
    SameRegsBut s t [] ∧ t.pc = s.pc + 3#8 ∧ t.ie = s.ie ∧ t.run = s.run ∧ t.output = s.output ∧ SameBytesBut s t []

/-! ### The stack -/

/-- PUSH lowers SP by one and stores there the value the register had before (PUSH R7: the old SP, D14, log 13); it runs when
SP is 1 to 0xF5 (D7, log 8). Only SP, pc and that one byte change. The wrap of the advance modulo 256 is the spec's choice
(D2; log 7). -/
def Obligations.PushStoresBelowTheStackPointer : Prop :=
  ∀ (a : Reg) (s : State), s.mem.wf = true → 1 ≤ s.sp.toNat → s.sp.toNat ≤ 0xF5 →
    ∃ t, exec (.push a) s = .next t ∧ t.sp = s.sp - 1#8 ∧
      t.byteAt s.pushAddress = s.reg a ∧ s.pushAddress = s.sp - 1#8 ∧ SameBytesBut s t [s.pushAddress] ∧
      SameRegsBut s t [.sp] ∧ t.pc = s.pc + 2#8 ∧ t.fl = s.fl ∧ t.ie = s.ie ∧ t.run = s.run ∧ t.output = s.output

/-- POP writes the byte at SP to the register and raises SP by one; POP R7 leaves SP at the popped byte (D14, log 13). It
runs when SP is at most 0xF3 (D7, log 8), and memory is only read. The wrap of the advance modulo 256 is the spec's choice
(D2; log 7). -/
def Obligations.PopLoadsTheTopByte : Prop :=
  ∀ (a : Reg) (s : State), s.sp.toNat ≤ 0xF3 →
    ∃ t, exec (.pop a) s = .next t ∧ t.reg a = s.byteAt s.sp ∧ (a ≠ .sp → t.sp = s.sp + 1#8) ∧
      SameRegsBut s t [.sp, a] ∧ SameBytesBut s t [] ∧
      t.pc = s.pc + 2#8 ∧ t.fl = s.fl ∧ t.ie = s.ie ∧ t.run = s.run ∧ t.output = s.output

/-- Outside those bounds the five stack instructions fault before anything moves: PUSH and CALL with StackOverflow, POP, RET
and IRET with StackUnderflow; the record holds pc, the opcode (the byte at pc), SP and the count (D7, D8; log 8, log 18). -/
def Obligations.StackInstructionsFaultOutOfBounds : Prop :=
  ∀ (a : Reg) (s : State),
    (s.sp.toNat = 0 ∨ 0xF5 < s.sp.toNat →
      exec (.push a) s = .next (s.setRun (.faulted (.stackOverflow s.pc (.instruction (s.byteAt s.pc)) s.sp 1))) ∧
      exec (.call a) s = .next (s.setRun (.faulted (.stackOverflow s.pc (.instruction (s.byteAt s.pc)) s.sp 1)))) ∧
    (0xF4 ≤ s.sp.toNat →
      exec (.pop a) s = .next (s.setRun (.faulted (.stackUnderflow s.pc (.instruction (s.byteAt s.pc)) s.sp 1))) ∧
      exec .ret s = .next (s.setRun (.faulted (.stackUnderflow s.pc (.instruction (s.byteAt s.pc)) s.sp 1)))) ∧
    (0xEB < s.sp.toNat →
      exec .iret s = .next (s.setRun (.faulted (.stackUnderflow s.pc (.instruction (s.byteAt s.pc)) s.sp 9))))

/-- After any push or pop that did not fault, SP is at most 0xF4: PUSH, CALL, RET, IRET, interrupt entry, and POP into any
register but SP itself (D7; log 8). -/
def Obligations.StackOperationsKeepTheStackPointerInBounds : Prop :=
  (∀ (i : Instr) (s t : State), s.run = .running → exec i s = .next t → (∀ f, t.run ≠ .faulted f) →
    (∃ a, i = .push a) ∨ (∃ a, i = .call a) ∨ i = .ret ∨ i = .iret ∨ (∃ a, a ≠ .sp ∧ i = .pop a) →
    t.sp.toNat ≤ 0xF4) ∧
  (∀ (i : Line) (s t : State), s.run = .running → interruptEntry i s = .next t → (∀ f, t.run ≠ .faulted f) →
    t.sp.toNat ≤ 0xF4)

/-- The source's round trip: any sequence of N pushes followed by the N pops of the same registers in reverse order, SP among
them, leaves every register as it was, SP included, and memory outside the N bytes below SP. It needs N bytes of room and
SP at most 0xF4 (D7; log 8). That SP may be among them (D14; log 13) and that pc ends 4N further modulo 256 (D2; log 7) rest
on the spec's choices. -/
def Obligations.PushesThenPopsRestoreTheRegisters : Prop :=
  ∀ (rs : List Reg) (s : State), s.mem.wf = true → rs.length ≤ s.sp.toNat → s.sp.toNat ≤ 0xF4 →
    ∃ t, execAll (rs.map Instr.push ++ rs.reverse.map Instr.pop) s = .next t ∧
      SameRegsBut s t [] ∧ t.pc = s.pc + BitVec.ofNat 8 (4 * rs.length) ∧
      (∀ a : Byte, a.toNat + rs.length < s.sp.toNat ∨ s.sp.toNat ≤ a.toNat → t.byteAt a = s.byteAt a) ∧
      t.fl = s.fl ∧ t.ie = s.ie ∧ t.run = s.run ∧ t.output = s.output

/-! ### Data movement and output -/

/-- R87: LDI writes the immediate to the register and nothing else but pc; an operand A above 7 is InvalidRegisterIndex and the
immediate is never checked. The operand bytes are the fetched ones:
that at pc 0xFE and 0xFF they lie modulo 256 is the spec's choice (D2; log 7). -/
def Obligations.LdiWritesTheImmediate : Prop :=
  (∀ (a : Reg) (imm : Byte) (s : State), ∃ t, exec (.ldi a imm) s = .next t ∧
    t.reg a = imm ∧ SameRegsBut s t [a] ∧
    (s.pc.toNat ≤ 252 → t.pc.toNat = s.pc.toNat + 3) ∧ t.fl = s.fl ∧ t.ie = s.ie ∧ t.run = s.run ∧ t.output = s.output ∧ SameBytesBut s t []) ∧
  IllegalOperandsAreFaults .ldi

/-- R88: ST stores register B in the cell register A addresses, and nothing else changes but pc; no address faults,
and an operand above 7 is InvalidRegisterIndex. The operand bytes are the fetched ones:
that at pc 0xFE and 0xFF they lie modulo 256 is the spec's choice (D2; log 7). -/
def Obligations.StStoresAtTheRegistersAddress : Prop :=
  (∀ (a b : Reg) (s : State), s.mem.wf = true → ∃ t, exec (.st a b) s = .next t ∧
    t.byteAt (storeAddress s a) = s.reg b ∧ storeAddress s a = s.reg a ∧ SameBytesBut s t [storeAddress s a] ∧
    SameRegsBut s t [] ∧
    (s.pc.toNat ≤ 252 → t.pc.toNat = s.pc.toNat + 3) ∧ t.fl = s.fl ∧ t.ie = s.ie ∧ t.run = s.run ∧ t.output = s.output) ∧
  IllegalOperandsAreFaults .st

/-- PRN appends the decimal digits of the register's value, most significant first, as code points, and a newline: the digits
are below 10, the first is 0 only for the value zero, and together they make the value. Nothing else changes but pc.
No leading zeros, and the newline as U+000A (D15; log 15), and the wrap of the advance modulo 256 (D2; log 7) are the spec's
choices. -/
def Obligations.PrnEmitsTheDecimalValue : Prop :=
  ∀ (a : Reg) (s : State), ∃ (t : State) (ds : List Nat), exec (.prn a) s = .next t ∧
    t.output = s.output ++ ds.map (fun d => 0x30 + d) ++ [0x0A] ∧
    (∀ d ∈ ds, d < 10) ∧ 1 ≤ ds.length ∧ ds.length ≤ 3 ∧ (ds.head? = some 0 → ds = [0]) ∧
    ds.foldl (fun n d => 10 * n + d) 0 = (s.reg a).toNat ∧
    SameRegsBut s t [] ∧ t.pc = s.pc + 2#8 ∧ t.fl = s.fl ∧ t.ie = s.ie ∧ t.run = s.run ∧ SameBytesBut s t []

/-- PRA appends the one code point of the register's value, no newline; nothing else changes but pc. Output as code points
(D15; log 15) and the wrap of the advance modulo 256 (D2; log 7) are the spec's choices. -/
def Obligations.PraEmitsOneCodePoint : Prop :=
  ∀ (a : Reg) (s : State), ∃ t, exec (.pra a) s = .next t ∧
    t.output = s.output ++ [(s.reg a).toNat] ∧
    SameRegsBut s t [] ∧ t.pc = s.pc + 2#8 ∧ t.fl = s.fl ∧ t.ie = s.ie ∧ t.run = s.run ∧ SameBytesBut s t []

/-! ### Control transfer -/

/-- R93: JMP sets pc to the register's value, whatever the flags, and nothing else changes; an operand above 7 is
InvalidRegisterIndex. The operand bytes are the fetched ones:
that at pc 0xFE and 0xFF they lie modulo 256 is the spec's choice (D2; log 7). -/
def Obligations.JmpGoesToTheRegister : Prop :=
  (∀ (a : Reg) (s : State), ∃ t, exec (.jmp a) s = .next t ∧ t.pc = s.reg a ∧
    SameRegsBut s t [] ∧ t.fl = s.fl ∧ t.ie = s.ie ∧ t.run = s.run ∧ t.output = s.output ∧ SameBytesBut s t []) ∧
  IllegalOperandsAreFaults .jmp

/-- JEQ goes to the register's value when the EQUAL bit is 1 and past itself when it is 0, JNE the other way round; no other
flag counts and nothing else changes. The wrap of the advance modulo 256 is the spec's choice (D2; log 7). -/
def Obligations.JeqAndJneFollowTheEqualBit : Prop :=
  (∀ (a : Reg) (s : State), ∃ t, exec (.jeq a) s = .next t ∧
    (s.fl.getLsbD 0 = true → t.pc = s.reg a) ∧ (s.fl.getLsbD 0 = false → t.pc = s.pc + 2#8) ∧
    SameRegsBut s t [] ∧ t.fl = s.fl ∧ t.ie = s.ie ∧ t.run = s.run ∧ t.output = s.output ∧ SameBytesBut s t []) ∧
  (∀ (a : Reg) (s : State), ∃ t, exec (.jne a) s = .next t ∧
    (s.fl.getLsbD 0 = false → t.pc = s.reg a) ∧ (s.fl.getLsbD 0 = true → t.pc = s.pc + 2#8) ∧
    SameRegsBut s t [] ∧ t.fl = s.fl ∧ t.ie = s.ie ∧ t.run = s.run ∧ t.output = s.output ∧ SameBytesBut s t [])

/-- CALL pushes the address of the byte after its operand, modulo 256 (D2, log 7), and goes to the value the register had
before the push; it runs when SP is 1 to 0xF5 (D7, log 8). -/
def Obligations.CallPushesTheReturnAddress : Prop :=
  ∀ (a : Reg) (s : State), s.mem.wf = true → 1 ≤ s.sp.toNat → s.sp.toNat ≤ 0xF5 →
    ∃ t, exec (.call a) s = .next t ∧ t.pc = s.reg a ∧ t.sp = s.sp - 1#8 ∧
      t.byteAt s.pushAddress = s.pc + 2#8 ∧ s.pushAddress = s.sp - 1#8 ∧ SameBytesBut s t [s.pushAddress] ∧
      SameRegsBut s t [.sp] ∧ t.fl = s.fl ∧ t.ie = s.ie ∧ t.run = s.run ∧ t.output = s.output

/-- RET goes to the byte on top of the stack and raises SP by one; it runs when SP is at most 0xF3 (D7, log 8). -/
def Obligations.RetGoesToTheTopByte : Prop :=
  ∀ s : State, s.sp.toNat ≤ 0xF3 →
    ∃ t, exec .ret s = .next t ∧ t.pc = s.byteAt s.sp ∧ t.sp = s.sp + 1#8 ∧
      SameRegsBut s t [.sp] ∧ SameBytesBut s t [] ∧ t.fl = s.fl ∧ t.ie = s.ie ∧ t.run = s.run ∧ t.output = s.output

/-- The source's round trip: CALL followed by RET returns to the instruction after the CALL with SP restored and every
register, flag and other byte as before. It needs SP 1 to 0xF4: a CALL made at SP 0xF5 cannot be undone (D7, log 8). The
return address modulo 256 is the spec's choice (D2; log 7). -/
def Obligations.CallThenRetReturnsPastTheCall : Prop :=
  ∀ (a : Reg) (s : State), s.mem.wf = true → 1 ≤ s.sp.toNat → s.sp.toNat ≤ 0xF4 →
    ∃ t u, exec (.call a) s = .next t ∧ exec .ret t = .next u ∧
      u.pc = s.pc + 2#8 ∧ SameRegsBut s u [] ∧ SameBytesBut s u [s.pushAddress] ∧
      u.fl = s.fl ∧ u.ie = s.ie ∧ u.run = s.run ∧ u.output = s.output

/-- HLT stops the cycle loop and changes no register, flag or memory; pc is left one past the HLT byte
(D13; log 12), modulo 256 (D2; log 7). -/
def Obligations.HltHalts : Prop :=
  ∀ s : State, ∃ t, exec .hlt s = .next t ∧ t.run = .halted ∧ t.pc = s.pc + 1#8 ∧
    SameRegsBut s t [] ∧ SameBytesBut s t [] ∧ t.fl = s.fl ∧ t.ie = s.ie ∧ t.output = s.output

/-! ### Interrupts -/

/-- `raise_interrupt(i)` sets bit i of IS and changes nothing else; raising a pending line changes nothing, and two raises
lose neither bit, in either order. -/
def Obligations.RaiseSetsExactlyOnePendingBit : Prop :=
  ∀ (i : Line) (s : State),
    (∀ j : Line, ((raiseInterrupt i s).reg .is).getLsbD j.val = (decide (j = i) || (s.reg .is).getLsbD j.val)) ∧
    raiseInterrupt i s = s.setReg .is ((raiseInterrupt i s).reg .is) ∧
    ((s.reg .is).getLsbD i.val = true → raiseInterrupt i s = s) ∧
    ∀ j : Line, raiseInterrupt i (raiseInterrupt j s) = raiseInterrupt j (raiseInterrupt i s)

/-- R113: the check of a running machine with `ie` 1 serves the least line that is pending and enabled as the cycle starts;
with `ie` 0, or no line both pending and enabled, the cycle is an ordinary fetch-execute. A line raised between two cycles
is served in the very next one if it is enabled and no lower line is pending and enabled. -/
def Obligations.TheCheckServesTheLowestPendingEnabledLine : Prop :=
  ∀ s : State, s.run = .running →
    (s.ie = false → step s = fetchExecute s) ∧
    ((∀ i : Line, pendingEnabled s i = false) → step s = fetchExecute s) ∧
    (∀ i : Line, s.ie = true → pendingEnabled s i = true → (∀ j : Line, j < i → pendingEnabled s j = false) →
      step s = interruptEntry i s) ∧
    (∀ i : Line, s.ie = true → (s.reg .im).getLsbD i.val = true → (∀ j : Line, j < i → pendingEnabled s j = false) →
      step (raiseInterrupt i s) = interruptEntry i (raiseInterrupt i s))

/-- An interrupt entry with a handler and room for nine bytes: `ie` is cleared, bit i of IS is cleared, pc, fl and x[0] to x[6]
(IS with the bit cleared) are saved at S-1 down to S-9, SP ends at S-9, pc is the vector. Nothing else changes.
A vector of 0x00 is no handler (D11, log 10); the stack bounds are the spec's choice (D7, log 8). -/
def Obligations.InterruptEntrySavesTheContext : Prop :=
  ∀ (i : Line) (s : State), s.mem.wf = true → s.byteAt (0xF8#8 + BitVec.ofNat 8 i.val) ≠ 0x00#8 →
    9 ≤ s.sp.toNat → s.sp.toNat ≤ 0xF5 →
    ∃ t, interruptEntry i s = .next t ∧
      t.pc = s.byteAt (0xF8#8 + BitVec.ofNat 8 i.val) ∧ t.ie = false ∧ t.sp = s.sp - 9#8 ∧
      (∀ j : Line, (t.reg .is).getLsbD j.val = ((s.reg .is).getLsbD j.val && !decide (j = i))) ∧
      t.byteAt (s.sp - 1#8) = s.pc ∧ t.byteAt (s.sp - 2#8) = s.fl ∧
      t.byteAt (s.sp - 3#8) = s.reg .r0 ∧ t.byteAt (s.sp - 4#8) = s.reg .r1 ∧ t.byteAt (s.sp - 5#8) = s.reg .r2 ∧
      t.byteAt (s.sp - 6#8) = s.reg .r3 ∧ t.byteAt (s.sp - 7#8) = s.reg .r4 ∧ t.byteAt (s.sp - 8#8) = s.reg .r5 ∧
      t.byteAt (s.sp - 9#8) = t.reg .r6 ∧
      SameBytesBut s t [s.sp - 1#8, s.sp - 2#8, s.sp - 3#8, s.sp - 4#8, s.sp - 5#8, s.sp - 6#8, s.sp - 7#8,
        s.sp - 8#8, s.sp - 9#8] ∧
      SameRegsBut s t [.is, .sp] ∧ t.fl = s.fl ∧ t.run = s.run ∧ t.output = s.output

/-- The two faults of an entry, the missing vector first; nothing but the run state changes: the line stays pending and `ie`
stays as it was (D7, D8, D9, D11; log 8, log 9, log 10). -/
def Obligations.InterruptEntryFaultsBeforeItBegins : Prop :=
  ∀ (i : Line) (s : State),
    (s.byteAt (0xF8#8 + BitVec.ofNat 8 i.val) = 0x00#8 →
      interruptEntry i s =
        .next (s.setRun (.faulted (.interruptVectorMissing i (0xF8#8 + BitVec.ofNat 8 i.val) s.pc)))) ∧
    (s.byteAt (0xF8#8 + BitVec.ofNat 8 i.val) ≠ 0x00#8 → s.sp.toNat < 9 ∨ 0xF5 < s.sp.toNat →
      interruptEntry i s = .next (s.setRun (.faulted (.stackOverflow s.pc (.interruptEntry i) s.sp 9))))

/-- IRET restores x[6] down to x[0], then fl, then pc from the nine bytes at SP, sets `ie`, and raises SP by nine; memory is
only read. It runs when SP is at most 0xEB (D7, log 8), loads all eight bits of fl (D6, log 14), and does the same when `ie` is
1 already (D24, log 17). -/
def Obligations.IretRestoresTheContext : Prop :=
  ∀ s : State, s.sp.toNat ≤ 0xEB →
    ∃ t, exec .iret s = .next t ∧
      t.reg .r6 = s.byteAt s.sp ∧ t.reg .r5 = s.byteAt (s.sp + 1#8) ∧ t.reg .r4 = s.byteAt (s.sp + 2#8) ∧
      t.reg .r3 = s.byteAt (s.sp + 3#8) ∧ t.reg .r2 = s.byteAt (s.sp + 4#8) ∧ t.reg .r1 = s.byteAt (s.sp + 5#8) ∧
      t.reg .r0 = s.byteAt (s.sp + 6#8) ∧ t.fl = s.byteAt (s.sp + 7#8) ∧ t.pc = s.byteAt (s.sp + 8#8) ∧
      t.sp = s.sp + 9#8 ∧ t.ie = true ∧ t.run = s.run ∧ t.output = s.output ∧ SameBytesBut s t []

/-- An entry, then any handler that leaves SP and the frame's nine bytes as it found them and is still running, then IRET:
pc, fl and x[0] to x[5] are exactly those before the interrupt, IS is the old one with the line's bit cleared, SP is
restored, and `ie` is 1; whatever the handler did to the live registers, the flags and `ie` is gone. It needs SP 9 to 0xF4
(D7; log 8). That all of fl returns (D6; log 14), that vector 0x00 is no handler (D11; log 10) and that IRET does not look at
`ie` (D24; log 17) are the spec's choices. -/
def Obligations.IretUndoesTheEntry : Prop :=
  ∀ (i : Line) (s : State), s.mem.wf = true → s.byteAt (0xF8#8 + BitVec.ofNat 8 i.val) ≠ 0x00#8 →
    9 ≤ s.sp.toNat → s.sp.toNat ≤ 0xF4 →
    ∃ t, interruptEntry i s = .next t ∧
      ∀ h : State, h.sp = t.sp → (∀ a : Byte, t.sp.toNat ≤ a.toNat → a.toNat < s.sp.toNat → h.byteAt a = t.byteAt a) →
        ∃ u, exec .iret h = .next u ∧
          SameRegsBut s u [.is] ∧
          (∀ j : Line, (u.reg .is).getLsbD j.val = ((s.reg .is).getLsbD j.val && !decide (j = i))) ∧
          u.pc = s.pc ∧ u.fl = s.fl ∧ u.ie = true ∧ u.run = h.run ∧ u.output = h.output ∧ SameBytesBut h u []

/-- A line raised during a handler is lost: IRET gives the same state whether or not it was raised. It needs SP at most 0xEB
(D7; log 8), and says it for either value of `ie` (D24; log 17). -/
def Obligations.IretLosesLinesRaisedInTheHandler : Prop :=
  ∀ (j : Line) (s : State), s.sp.toNat ≤ 0xEB → exec .iret (raiseInterrupt j s) = exec .iret s

/-- After IRET the next cycle serves the lowest line that the restored IS and IM have pending and enabled, before any
instruction of the interrupted program. It needs SP at most 0xEB (D7; log 8), and says it for either value of `ie` before the
IRET (D24; log 17). -/
def Obligations.TheNextPendingLineFollowsTheIret : Prop :=
  ∀ (i : Line) (s : State), s.run = .running → s.sp.toNat ≤ 0xEB →
    (s.byteAt s.sp).getLsbD i.val = true → (s.byteAt (s.sp + 1#8)).getLsbD i.val = true →
    (∀ j : Line, j < i → ((s.byteAt s.sp).getLsbD j.val && (s.byteAt (s.sp + 1#8)).getLsbD j.val) = false) →
    ∃ t, exec .iret s = .next t ∧ step t = interruptEntry i t

/-! ### Reset -/

/-- What reset leaves: x[7] = 0xF4, pc = 0 and ie = 1 (the source's values), x[0] to x[6] and fl zero (D3, D4; log 4), Running,
no interrupt to serve; memory and output untouched (D23; log 5). It is the one way out of a stopped state: the other two
actions, a cycle and a raise, leave the run state of a halted or faulted machine as it was (D12; log 11), under every map. -/
def Obligations.ResetLeavesTheBlockAsTheTableSays : Prop :=
  (∀ s : State, (hostReset s).reg .sp = 0xF4#8 ∧ (hostReset s).pc = 0x00#8 ∧ (hostReset s).ie = true ∧
    (∀ r, r ≠ .sp → (hostReset s).reg r = 0x00#8) ∧ (hostReset s).fl = 0x00#8 ∧ (hostReset s).run = .running ∧
    (hostReset s).mem = s.mem ∧ (hostReset s).output = s.output ∧
    interruptCheck (hostReset s) = none ∧ (fetch (hostReset s)).op = s.byteAt 0x00#8 ∧ faultRecord (hostReset s) = none) ∧
  hostReset State.reset = State.reset ∧
  (∀ (m : OpcodeMap) (s : State), perform m .reset s = .next (hostReset s)) ∧
  (∀ (m : OpcodeMap) (s : State), s.run ≠ .running →
    (∃ t, perform m .cycle s = .next t ∧ t.run = s.run) ∧
    ∀ i : Line, ∃ t, perform m (.raise i) s = .next t ∧ t.run = s.run)

/-! ### The invariant -/

/-- The invariant holds of the state after reset, under every OPCODE_MAP. -/
def Obligations.InvariantHoldsAtReset : Prop := ∀ m : OpcodeMap, State.reset.Inv m

/-- Every cycle, from every state that meets it, reachable or not, keeps the invariant: memory stays in canonical form, output
stays in range, and a fault record stays true of the state it stands in. Said of `step`, and of the cycle under every
OPCODE_MAP, legal or not. That a record is still true rests on faults changing nothing (D8; log 9), on operands at pc+1 and
pc+2 modulo 256 (D2; log 7), on the stack bounds (D7; log 8) and on vector 0x00 (D11; log 10). -/
def Obligations.EveryStepKeepsTheInvariant : Prop :=
  (∀ s t : State, s.Inv opcodeMap → step s = .next t → t.Inv opcodeMap) ∧
  (∀ (m : OpcodeMap) (s t : State), s.Inv m → stepWith m s = .next t → t.Inv m)

/-- Every run under every OPCODE_MAP, any list of cycles, raises and resets from any state that meets the invariant, completes
and keeps it, and so does every such run from a machine booted with any image (D16; log 6; the record as in
`EveryStepKeepsTheInvariant`). -/
def Obligations.EveryRunKeepsTheInvariant : Prop :=
  (∀ (m : OpcodeMap) (events : List HostEvent) (s : State), s.Inv m →
    ∃ t, performAll m events s = .next t ∧ t.Inv m) ∧
  (∀ (m : OpcodeMap) (events : List HostEvent) (image : List Byte),
    ∃ t, performAll m events (State.boot image) = .next t ∧ t.Inv m)

/-! ### The opcode map as configuration -/

/-- The machine under any OPCODE_MAP that meets the constraints (D1: OPEN; log 1). `step` is its cycle under the default map; a
running machine with no interrupt to serve runs the instruction whose encoding under that map lies at pc (modulo 256: D2,
log 7), or takes the fault of an opcode outside the map or of a register operand above 7, A before B (D8, D9, D10, log 9; D20,
log 16); and where nothing is fetched, in a stopped machine or at an interrupt entry, the map does not matter. -/
def Obligations.EveryOpcodeMapDrivesTheSameMachine : Prop :=
  (∀ s : State, step s = stepWith opcodeMap s) ∧
  (∀ (m : OpcodeMap) (s : State), m.Legal → s.run = .running → interruptCheck s = none →
    (∀ i : Instr, encodeWith m i <+: [s.byteAt s.pc, s.byteAt (s.pc + 1#8), s.byteAt (s.pc + 2#8)] →
      stepWith m s = exec i s) ∧
    ((∀ x, m x ≠ s.byteAt s.pc) →
      stepWith m s = .next (s.setRun (.faulted (.invalidOpcode s.pc (s.byteAt s.pc))))) ∧
    (∀ x, m x = s.byteAt s.pc → x.format.hasRegA = true → 7 < (s.byteAt (s.pc + 1#8)).toNat →
      stepWith m s = .next (s.setRun (.faulted
        (.invalidRegisterIndex s.pc (s.byteAt s.pc) .a (s.byteAt (s.pc + 1#8)))))) ∧
    (∀ x, m x = s.byteAt s.pc → x.format.hasRegB = true → (s.byteAt (s.pc + 1#8)).toNat ≤ 7 →
      7 < (s.byteAt (s.pc + 2#8)).toNat →
      stepWith m s = .next (s.setRun (.faulted
        (.invalidRegisterIndex s.pc (s.byteAt s.pc) .b (s.byteAt (s.pc + 2#8))))))) ∧
  (∀ (m n : OpcodeMap) (s : State), s.run ≠ .running ∨ (interruptCheck s).isSome = true → stepWith m s = stepWith n s)

/-- Recoding: the same instruction written in another legal OPCODE_MAP does the same (D1; log 1). If its encoding under one map
lies at pc in one state, its encoding under another map lies at pc in the other, and the states differ in memory only, a cycle
of each under its own map leaves the same registers, flags, `ie`, run state, output and pc, and memory cells that were alike
are alike (addresses modulo 256: D2, log 7). POP, RET and IRET, which read memory, and a PUSH or CALL that faults, whose record
names its opcode byte (log 18), are left to `EveryOpcodeMapDrivesTheSameMachine`. -/
def Obligations.RecodedInstructionsRunAlike : Prop :=
  ∀ (m n : OpcodeMap) (s t : State) (i : Instr), m.Legal → n.Legal → s.run = .running → interruptCheck s = none →
    encodeWith m i <+: [s.byteAt s.pc, s.byteAt (s.pc + 1#8), s.byteAt (s.pc + 2#8)] →
    encodeWith n i <+: [t.byteAt t.pc, t.byteAt (t.pc + 1#8), t.byteAt (t.pc + 2#8)] →
    s.mem.wf = true → t.mem.wf = true → ({ t with mem := s.mem } : State) = s →
    (∀ a, i = .push a ∨ i = .call a → s.canPush 1 = true) → (∀ a, i ≠ .pop a) → i ≠ .ret → i ≠ .iret →
    ∃ u v, stepWith m s = .next u ∧ stepWith n t = .next v ∧ ({ v with mem := u.mem } : State) = u ∧
      ∀ c : Byte, s.byteAt c = t.byteAt c → u.byteAt c = v.byteAt c
end

