-- ==== Sys2Proof/Laws/Decode.lean ====
section
/-! SUPPORT. The small lemmas of the decoder: register bytes, the opcode lookup, and what each operand form answers. -/

namespace Sys2Proof

theorem Reg.toByte_toNat_le (r : Reg) : r.toByte.toNat ≤ 7 := by cases r <;> decide

@[simp] theorem Reg.ofByte?_toByte (r : Reg) : Reg.ofByte? r.toByte = some r := by cases r <;> rfl

/-- The register a byte names, said through the register's own byte. -/
theorem Reg.ofByte?_eq_some (v : Byte) (r : Reg) : Reg.ofByte? v = some r ↔ v = r.toByte := by
  constructor
  · intro h
    unfold Reg.ofByte? at h
    split at h <;> cases h
    all_goals exact BitVec.eq_of_toNat_eq (by simpa [Reg.toByte] using ‹v.toNat = _›)
  · rintro rfl; exact Reg.ofByte?_toByte r

/-- The illegal register bytes are those above 7 (30_encoding.md R48). -/
theorem Reg.ofByte?_eq_none (v : Byte) : Reg.ofByte? v = none ↔ 7 < v.toNat := by
  unfold Reg.ofByte?
  split <;> (simp_all; try omega)

/-- A legal register byte names a register. -/
theorem Reg.exists_of_le (v : Byte) (h : v.toNat ≤ 7) : ∃ r : Reg, v = r.toByte := by
  cases hr : Reg.ofByte? v with
  | none => exact absurd ((Reg.ofByte?_eq_none v).1 hr) (by omega)
  | some r => exact ⟨r, (Reg.ofByte?_eq_some v r).1 hr⟩

theorem Mnemonic.mem_all (x : Mnemonic) : x ∈ Mnemonic.all := by cases x <;> decide

/-- What the lookup finds has the byte it was asked for. -/
theorem OpcodeMap.lookup_eq_some {m : OpcodeMap} {op : Byte} {x : Mnemonic} (h : m.lookup op = some x) : m x = op := by
  simpa using List.find?_some h

/-- The lookup misses exactly the bytes outside the map. -/
theorem OpcodeMap.lookup_eq_none (m : OpcodeMap) (op : Byte) : m.lookup op = none ↔ ∀ x, m x ≠ op := by
  simp [OpcodeMap.lookup, Mnemonic.mem_all]

/-- A legal map's lookup is its inverse. -/
theorem OpcodeMap.lookup_apply {m : OpcodeMap} (hm : m.Legal) (x : Mnemonic) : m.lookup (m x) = some x := by
  cases h : m.lookup (m x) with
  | none => exact absurd rfl ((OpcodeMap.lookup_eq_none m _).1 h x)
  | some y => exact congrArg some (hm.injective _ _ (OpcodeMap.lookup_eq_some h))

theorem decodeRegA_ok {f : Fetched} {r : Reg} (k : Reg → Instr) (ha : f.a = r.toByte) : decodeRegA f k = .ok (k r) := by
  simp [decodeRegA, ha]

theorem decodeRegA_error {f : Fetched} (k : Reg → Instr) (ha : 7 < f.a.toNat) :
    decodeRegA f k = .error (.invalidRegisterIndex f.op .a f.a) := by
  simp [decodeRegA, (Reg.ofByte?_eq_none _).2 ha]

theorem decodeRegAB_ok {f : Fetched} {a b : Reg} (k : Reg → Reg → Instr) (ha : f.a = a.toByte) (hb : f.b = b.toByte) :
    decodeRegAB f k = .ok (k a b) := by
  simp [decodeRegAB, ha, hb]

theorem decodeRegAB_error_a {f : Fetched} (k : Reg → Reg → Instr) (ha : 7 < f.a.toNat) :
    decodeRegAB f k = .error (.invalidRegisterIndex f.op .a f.a) := by
  simp [decodeRegAB, (Reg.ofByte?_eq_none _).2 ha]

theorem decodeRegAB_error_b {f : Fetched} {a : Reg} (k : Reg → Reg → Instr) (ha : f.a = a.toByte) (hb : 7 < f.b.toNat) :
    decodeRegAB f k = .error (.invalidRegisterIndex f.op .b f.b) := by
  simp [decodeRegAB, ha, (Reg.ofByte?_eq_none _).2 hb]

/-- The one way format R and RI operands decode. -/
theorem decodeRegA_eq_ok {f : Fetched} {k : Reg → Instr} {i : Instr} (h : decodeRegA f k = .ok i) :
    ∃ r, f.a = r.toByte ∧ i = k r := by
  unfold decodeRegA at h
  split at h
  · cases h
  · next r hr => cases h; exact ⟨r, (Reg.ofByte?_eq_some _ _).1 hr, rfl⟩

/-- The one way format RR operands decode. -/
theorem decodeRegAB_eq_ok {f : Fetched} {k : Reg → Reg → Instr} {i : Instr} (h : decodeRegAB f k = .ok i) :
    ∃ a b, f.a = a.toByte ∧ f.b = b.toByte ∧ i = k a b := by
  unfold decodeRegAB at h
  split at h
  · cases h
  · next a ha =>
    split at h
    · cases h
    · next b hb =>
      cases h
      exact ⟨a, b, (Reg.ofByte?_eq_some _ _).1 ha, (Reg.ofByte?_eq_some _ _).1 hb, rfl⟩

/-- The one way a register fault of format R and RI arises. -/
theorem decodeRegA_eq_error {f : Fetched} {k : Reg → Instr} {e : DecodeError} (h : decodeRegA f k = .error e) :
    7 < f.a.toNat ∧ e = .invalidRegisterIndex f.op .a f.a := by
  unfold decodeRegA at h
  split at h
  · next hr => cases h; exact ⟨(Reg.ofByte?_eq_none _).1 hr, rfl⟩
  · cases h

/-- The two ways a register fault of format RR arises. -/
theorem decodeRegAB_eq_error {f : Fetched} {k : Reg → Reg → Instr} {e : DecodeError} (h : decodeRegAB f k = .error e) :
    (7 < f.a.toNat ∧ e = .invalidRegisterIndex f.op .a f.a) ∨
    (7 < f.b.toNat ∧ e = .invalidRegisterIndex f.op .b f.b) := by
  unfold decodeRegAB at h
  split at h
  · next hr => cases h; exact .inl ⟨(Reg.ofByte?_eq_none _).1 hr, rfl⟩
  · split at h
    · next hr => cases h; exact .inr ⟨(Reg.ofByte?_eq_none _).1 hr, rfl⟩
    · cases h

/-- Every way the operands of a known mnemonic are rejected. -/
theorem decodeOperands_eq_error {x : Mnemonic} {f : Fetched} {e : DecodeError} (h : decodeOperands x f = .error e) :
    (x.format.hasRegA = true ∧ 7 < f.a.toNat ∧ e = .invalidRegisterIndex f.op .a f.a) ∨
    (x.format.hasRegB = true ∧ 7 < f.b.toNat ∧ e = .invalidRegisterIndex f.op .b f.b) := by
  cases x <;> simp only [decodeOperands] at h <;> first
    | cases h
    | exact .inl ⟨rfl, decodeRegA_eq_error h⟩
    | exact (decodeRegAB_eq_error h).imp (fun p => ⟨rfl, p⟩) (fun p => ⟨rfl, p⟩)

/-- An instruction decoded for a mnemonic is one of that mnemonic. -/
theorem decodeOperands_mnemonic {x : Mnemonic} {f : Fetched} {i : Instr} (h : decodeOperands x f = .ok i) :
    i.mnemonic = x := by
  cases x <;> simp only [decodeOperands] at h <;> first
    | (cases h; rfl)
    | (obtain ⟨_, _, rfl⟩ := decodeRegA_eq_ok h; rfl)
    | (obtain ⟨_, _, _, _, rfl⟩ := decodeRegAB_eq_ok h; rfl)

/-- The opcode byte of a decoded instruction is the map's. -/
theorem decodeWith_opcode {m : OpcodeMap} {f : Fetched} {i : Instr} (h : decodeWith m f = .ok i) :
    m i.mnemonic = f.op := by
  unfold decodeWith at h
  split at h
  · cases h
  · next x hx => rw [decodeOperands_mnemonic h]; exact OpcodeMap.lookup_eq_some hx

end Sys2Proof
end

