-- ==== Sys2Proof/Laws/State.lean ====
section
/-! SUPPORT. One lemma per field per update of the state, so that no later proof unfolds a record update. -/

namespace Sys2Proof.Machine

variable (s : State)

/-! ### `setReg` -/

@[simp] theorem State.setReg_regs (r : Reg) (v : Byte) : (s.setReg r v).regs = s.regs.set r v := rfl
@[simp] theorem State.setReg_pc (r : Reg) (v : Byte) : (s.setReg r v).pc = s.pc := rfl
@[simp] theorem State.setReg_fl (r : Reg) (v : Byte) : (s.setReg r v).fl = s.fl := rfl
@[simp] theorem State.setReg_ie (r : Reg) (v : Byte) : (s.setReg r v).ie = s.ie := rfl
@[simp] theorem State.setReg_run (r : Reg) (v : Byte) : (s.setReg r v).run = s.run := rfl
@[simp] theorem State.setReg_mem (r : Reg) (v : Byte) : (s.setReg r v).mem = s.mem := rfl
@[simp] theorem State.setReg_output (r : Reg) (v : Byte) : (s.setReg r v).output = s.output := rfl
@[simp] theorem State.setReg_byteAt (r : Reg) (v : Byte) (c : Byte) : (s.setReg r v).byteAt c = s.byteAt c := rfl

/-! ### `storeByte` -/

@[simp] theorem State.storeByte_regs (a v : Byte) : (s.storeByte a v).regs = s.regs := rfl
@[simp] theorem State.storeByte_pc (a v : Byte) : (s.storeByte a v).pc = s.pc := rfl
@[simp] theorem State.storeByte_fl (a v : Byte) : (s.storeByte a v).fl = s.fl := rfl
@[simp] theorem State.storeByte_ie (a v : Byte) : (s.storeByte a v).ie = s.ie := rfl
@[simp] theorem State.storeByte_run (a v : Byte) : (s.storeByte a v).run = s.run := rfl
@[simp] theorem State.storeByte_mem (a v : Byte) : (s.storeByte a v).mem = s.mem.write a v := rfl
@[simp] theorem State.storeByte_output (a v : Byte) : (s.storeByte a v).output = s.output := rfl
@[simp] theorem State.storeByte_reg (a v : Byte) (q : Reg) : (s.storeByte a v).reg q = s.reg q := rfl
@[simp] theorem State.storeByte_sp (a v : Byte) : (s.storeByte a v).sp = s.sp := rfl

/-! ### `jumpTo` -/

@[simp] theorem State.jumpTo_regs (t : Byte) : (s.jumpTo t).regs = s.regs := rfl
@[simp] theorem State.jumpTo_pc (t : Byte) : (s.jumpTo t).pc = t := rfl
@[simp] theorem State.jumpTo_fl (t : Byte) : (s.jumpTo t).fl = s.fl := rfl
@[simp] theorem State.jumpTo_ie (t : Byte) : (s.jumpTo t).ie = s.ie := rfl
@[simp] theorem State.jumpTo_run (t : Byte) : (s.jumpTo t).run = s.run := rfl
@[simp] theorem State.jumpTo_mem (t : Byte) : (s.jumpTo t).mem = s.mem := rfl
@[simp] theorem State.jumpTo_output (t : Byte) : (s.jumpTo t).output = s.output := rfl
@[simp] theorem State.jumpTo_reg (t : Byte) (q : Reg) : (s.jumpTo t).reg q = s.reg q := rfl
@[simp] theorem State.jumpTo_sp (t : Byte) : (s.jumpTo t).sp = s.sp := rfl
@[simp] theorem State.jumpTo_byteAt (t : Byte) (c : Byte) : (s.jumpTo t).byteAt c = s.byteAt c := rfl

/-! ### `advance` -/

@[simp] theorem State.advance_regs (n : Nat) : (s.advance n).regs = s.regs := rfl
@[simp] theorem State.advance_pc (n : Nat) : (s.advance n).pc = s.pc + BitVec.ofNat 8 n := rfl
@[simp] theorem State.advance_fl (n : Nat) : (s.advance n).fl = s.fl := rfl
@[simp] theorem State.advance_ie (n : Nat) : (s.advance n).ie = s.ie := rfl
@[simp] theorem State.advance_run (n : Nat) : (s.advance n).run = s.run := rfl
@[simp] theorem State.advance_mem (n : Nat) : (s.advance n).mem = s.mem := rfl
@[simp] theorem State.advance_output (n : Nat) : (s.advance n).output = s.output := rfl
@[simp] theorem State.advance_reg (n : Nat) (q : Reg) : (s.advance n).reg q = s.reg q := rfl
@[simp] theorem State.advance_sp (n : Nat) : (s.advance n).sp = s.sp := rfl
@[simp] theorem State.advance_byteAt (n : Nat) (c : Byte) : (s.advance n).byteAt c = s.byteAt c := rfl

/-! ### `setFl` -/

@[simp] theorem State.setFl_regs (v : Byte) : (s.setFl v).regs = s.regs := rfl
@[simp] theorem State.setFl_pc (v : Byte) : (s.setFl v).pc = s.pc := rfl
@[simp] theorem State.setFl_fl (v : Byte) : (s.setFl v).fl = v := rfl
@[simp] theorem State.setFl_ie (v : Byte) : (s.setFl v).ie = s.ie := rfl
@[simp] theorem State.setFl_run (v : Byte) : (s.setFl v).run = s.run := rfl
@[simp] theorem State.setFl_mem (v : Byte) : (s.setFl v).mem = s.mem := rfl
@[simp] theorem State.setFl_output (v : Byte) : (s.setFl v).output = s.output := rfl
@[simp] theorem State.setFl_reg (v : Byte) (q : Reg) : (s.setFl v).reg q = s.reg q := rfl
@[simp] theorem State.setFl_sp (v : Byte) : (s.setFl v).sp = s.sp := rfl
@[simp] theorem State.setFl_byteAt (v : Byte) (c : Byte) : (s.setFl v).byteAt c = s.byteAt c := rfl

/-! ### `setIe` -/

@[simp] theorem State.setIe_regs (b : Bool) : (s.setIe b).regs = s.regs := rfl
@[simp] theorem State.setIe_pc (b : Bool) : (s.setIe b).pc = s.pc := rfl
@[simp] theorem State.setIe_fl (b : Bool) : (s.setIe b).fl = s.fl := rfl
@[simp] theorem State.setIe_ie (b : Bool) : (s.setIe b).ie = b := rfl
@[simp] theorem State.setIe_run (b : Bool) : (s.setIe b).run = s.run := rfl
@[simp] theorem State.setIe_mem (b : Bool) : (s.setIe b).mem = s.mem := rfl
@[simp] theorem State.setIe_output (b : Bool) : (s.setIe b).output = s.output := rfl
@[simp] theorem State.setIe_reg (b : Bool) (q : Reg) : (s.setIe b).reg q = s.reg q := rfl
@[simp] theorem State.setIe_sp (b : Bool) : (s.setIe b).sp = s.sp := rfl
@[simp] theorem State.setIe_byteAt (b : Bool) (c : Byte) : (s.setIe b).byteAt c = s.byteAt c := rfl

/-! ### `setRun` -/

@[simp] theorem State.setRun_regs (r : RunState) : (s.setRun r).regs = s.regs := rfl
@[simp] theorem State.setRun_pc (r : RunState) : (s.setRun r).pc = s.pc := rfl
@[simp] theorem State.setRun_fl (r : RunState) : (s.setRun r).fl = s.fl := rfl
@[simp] theorem State.setRun_ie (r : RunState) : (s.setRun r).ie = s.ie := rfl
@[simp] theorem State.setRun_run (r : RunState) : (s.setRun r).run = r := rfl
@[simp] theorem State.setRun_mem (r : RunState) : (s.setRun r).mem = s.mem := rfl
@[simp] theorem State.setRun_output (r : RunState) : (s.setRun r).output = s.output := rfl
@[simp] theorem State.setRun_reg (r : RunState) (q : Reg) : (s.setRun r).reg q = s.reg q := rfl
@[simp] theorem State.setRun_sp (r : RunState) : (s.setRun r).sp = s.sp := rfl
@[simp] theorem State.setRun_byteAt (r : RunState) (c : Byte) : (s.setRun r).byteAt c = s.byteAt c := rfl

/-! ### `emit` -/

@[simp] theorem State.emit_regs (cs : List CodePoint) : (s.emit cs).regs = s.regs := rfl
@[simp] theorem State.emit_pc (cs : List CodePoint) : (s.emit cs).pc = s.pc := rfl
@[simp] theorem State.emit_fl (cs : List CodePoint) : (s.emit cs).fl = s.fl := rfl
@[simp] theorem State.emit_ie (cs : List CodePoint) : (s.emit cs).ie = s.ie := rfl
@[simp] theorem State.emit_run (cs : List CodePoint) : (s.emit cs).run = s.run := rfl
@[simp] theorem State.emit_mem (cs : List CodePoint) : (s.emit cs).mem = s.mem := rfl
@[simp] theorem State.emit_output (cs : List CodePoint) : (s.emit cs).output = s.output ++ cs := rfl
@[simp] theorem State.emit_reg (cs : List CodePoint) (q : Reg) : (s.emit cs).reg q = s.reg q := rfl
@[simp] theorem State.emit_sp (cs : List CodePoint) : (s.emit cs).sp = s.sp := rfl
@[simp] theorem State.emit_byteAt (cs : List CodePoint) (c : Byte) : (s.emit cs).byteAt c = s.byteAt c := rfl

/-! ### Registers -/

theorem Regs.get_set (g : Regs) (r q : Reg) (v : Byte) :
    (g.set r v).get q = if q = r then v else g.get q := by
  cases r <;> cases q <;> rfl

theorem Regs.ext_get (g h : Regs) (hgh : ∀ r, g.get r = h.get r) : g = h := by
  cases g; cases h
  have h0 := hgh .r0; have h1 := hgh .r1; have h2 := hgh .r2; have h3 := hgh .r3
  have h4 := hgh .r4; have h5 := hgh .r5; have h6 := hgh .r6; have h7 := hgh .r7
  simp only [Regs.get] at h0 h1 h2 h3 h4 h5 h6 h7
  simp [*]

theorem State.setReg_reg (r q : Reg) (v : Byte) :
    (s.setReg r v).reg q = if q = r then v else s.reg q := Regs.get_set s.regs r q v

@[simp] theorem State.setReg_reg_same (r : Reg) (v : Byte) : (s.setReg r v).reg r = v := by
  simp [State.setReg_reg]

@[simp] theorem State.setReg_reg_other (r q : Reg) (v : Byte) (h : q ≠ r) :
    (s.setReg r v).reg q = s.reg q := by
  simp [State.setReg_reg, h]

@[simp] theorem State.setReg_sp_same (v : Byte) : (s.setReg .sp v).sp = v := rfl

theorem State.sp_eq : s.sp = s.reg .sp := rfl

/-- Two states with the same registers and the same other fields are the same state. -/
theorem State.ext_fields (t : State) (hr : ∀ r, s.reg r = t.reg r) (hpc : s.pc = t.pc) (hfl : s.fl = t.fl)
    (hie : s.ie = t.ie) (hrun : s.run = t.run) (hmem : s.mem = t.mem) (hout : s.output = t.output) : s = t := by
  cases s; cases t
  have : (_ : Regs) = _ := Regs.ext_get _ _ hr
  simp_all

end Sys2Proof.Machine
end

