-- ==== Sys2Proof/Laws/Memory.lean ====
section
/-! SUPPORT. The laws of memory: read after write, and that every memory operation keeps the canonical form. -/

namespace Sys2Proof.Machine

/-- A well-formed list from a higher bound is well-formed from a lower one. -/
theorem cellsWf_mono {lo lo' : Nat} (h : lo' ≤ lo) {cells : List Host.Cell} (hw : cellsWf lo cells = true) :
    cellsWf lo' cells = true := by
  cases cells with
  | nil => rfl
  | cons c rest =>
    simp only [cellsWf, Bool.and_eq_true, decide_eq_true_eq] at hw ⊢
    exact ⟨⟨⟨by omega, hw.1.1.2⟩, hw.1.2⟩, hw.2⟩

/-- Below the bound of a well-formed list every cell is unlisted. -/
theorem cellsRead_below {lo addr : Nat} (h : addr < lo) {cells : List Host.Cell} (hw : cellsWf lo cells = true) :
    cellsRead cells addr = unlistedByte := by
  cases cells with
  | nil => rfl
  | cons c rest =>
    simp only [cellsWf, Bool.and_eq_true, decide_eq_true_eq] at hw
    simp [cellsRead, show addr < c.1 by omega]

theorem cellsWf_cons {lo addr : Nat} (v : Byte) {rest : List Host.Cell} (hlo : lo ≤ addr) (h256 : addr < 256)
    (hw : cellsWf (addr + 1) rest = true) : cellsWf lo (cellsCons addr v rest) = true := by
  unfold cellsCons
  split
  · exact cellsWf_mono (by omega) hw
  · simp_all [cellsWf]

theorem cellsWf_write {lo addr : Nat} (v : Byte) (cells : List Host.Cell) (hlo : lo ≤ addr) (h256 : addr < 256)
    (hw : cellsWf lo cells = true) : cellsWf lo (cellsWrite cells addr v) = true := by
  induction cells generalizing lo with
  | nil => exact cellsWf_cons v hlo h256 rfl
  | cons c rest ih =>
    simp only [cellsWf, Bool.and_eq_true, decide_eq_true_eq] at hw
    obtain ⟨⟨⟨hk, hk256⟩, hv⟩, hrest⟩ := hw
    simp only [cellsWrite]
    split
    · exact cellsWf_cons v hlo h256 (by simp [cellsWf, hk256, hv, hrest]; omega)
    · split
      · next heq => subst heq; exact cellsWf_cons v hlo h256 hrest
      · have := ih (lo := c.1 + 1) (by omega) hrest
        simp [cellsWf, hk, hk256, hv, this]

theorem cellsRead_cons {addr b : Nat} (v : Byte) {rest : List Host.Cell} (hw : cellsWf (addr + 1) rest = true) :
    cellsRead (cellsCons addr v rest) b = if b = addr then v else cellsRead rest b := by
  unfold cellsCons
  split
  · next hv =>
    subst hv
    split
    · next hb => subst hb; exact cellsRead_below (by omega) hw
    · rfl
  · simp only [cellsRead]
    split
    · rw [if_neg (by omega), cellsRead_below (by omega) hw]
    · rfl

theorem cellsRead_write {lo addr b : Nat} (v : Byte) (cells : List Host.Cell) (hw : cellsWf lo cells = true) :
    cellsRead (cellsWrite cells addr v) b = if b = addr then v else cellsRead cells b := by
  induction cells generalizing lo with
  | nil => exact cellsRead_cons v rfl
  | cons c rest ih =>
    simp only [cellsWf, Bool.and_eq_true, decide_eq_true_eq] at hw
    obtain ⟨⟨⟨hk, hk256⟩, hv⟩, hrest⟩ := hw
    simp only [cellsWrite]
    split
    · exact cellsRead_cons v (by simp [cellsWf, hk256, hv, hrest]; omega)
    · split
      · next heq =>
        subst heq
        rw [cellsRead_cons v hrest]
        simp only [cellsRead]
        split
        · rfl
        · split
          · exact cellsRead_below (by omega) hrest
          · rfl
      · simp only [cellsRead, ih hrest]
        split
        · rw [if_neg (by omega)]
        · split
          · rw [if_neg (by omega)]
          · rfl

/-- Equal reads make equal lists, in canonical form. -/
theorem cells_ext {lo : Nat} (l m : List Host.Cell) (hl : cellsWf lo l = true) (hm : cellsWf lo m = true)
    (h : ∀ addr, addr < 256 → cellsRead l addr = cellsRead m addr) : l = m := by
  induction l generalizing lo m with
  | nil =>
    cases m with
    | nil => rfl
    | cons c rest =>
      simp only [cellsWf, Bool.and_eq_true, decide_eq_true_eq] at hm
      have := h c.1 hm.1.1.2
      simp [cellsRead] at this
      exact absurd this.symm hm.1.2
  | cons c rest ih =>
    have hl' := hl
    simp only [cellsWf, Bool.and_eq_true, decide_eq_true_eq] at hl
    cases m with
    | nil =>
      have := h c.1 hl.1.1.2
      simp [cellsRead] at this
      exact absurd this hl.1.2
    | cons d rest' =>
      have hm' := hm
      simp only [cellsWf, Bool.and_eq_true, decide_eq_true_eq] at hm
      have hc := h c.1 hl.1.1.2
      have hd := h d.1 hm.1.1.2
      have hkey : c.1 = d.1 := by
        rcases lt_trichotomy c.1 d.1 with hlt | heq | hgt
        · simp [cellsRead, hlt] at hc
          exact absurd hc hl.1.2
        · exact heq
        · simp [cellsRead, hgt] at hd
          exact absurd hd.symm hm.1.2
      have hval : c.2 = d.2 := by
        simpa [cellsRead, hkey] using hc
      have hcd : c = d := Prod.ext hkey hval
      subst hcd
      congr 1
      refine ih rest' hl.2 hm.2 fun addr ha => ?_
      rcases Nat.lt_or_ge addr (c.1 + 1) with hlt | hge
      · rw [cellsRead_below hlt hl.2, cellsRead_below hlt hm.2]
      · have := h addr ha
        simpa [cellsRead, show ¬ addr < c.1 by omega, show addr ≠ c.1 by omega] using this

@[simp] theorem Memory.wf_write (m : Memory) (a v : Byte) (h : m.wf = true) : (m.write a v).wf = true :=
  cellsWf_write v m.cells (Nat.zero_le _) a.isLt h

theorem Memory.read_write (m : Memory) (a b v : Byte) (h : m.wf = true) :
    (m.write a v).read b = if b = a then v else m.read b := by
  have := cellsRead_write (addr := a.toNat) (b := b.toNat) v m.cells h
  simpa [Memory.read, Memory.write, BitVec.toNat_inj] using this

theorem Memory.ext_read (m n : Memory) (hm : m.wf = true) (hn : n.wf = true)
    (h : ∀ a, m.read a = n.read a) : m = n := by
  cases m; cases n
  congr 1
  refine cells_ext _ _ hm hn fun addr ha => ?_
  have := h (BitVec.ofNat 8 addr)
  simpa [Memory.read, Nat.mod_eq_of_lt ha] using this

/-- Memory with nothing listed is canonical. -/
theorem Memory.wf_empty : (⟨[]⟩ : Memory).wf = true := rfl

theorem State.storeByte_byteAt (s : State) (a v c : Byte) (h : s.mem.wf = true) :
    (s.storeByte a v).byteAt c = if c = a then v else s.byteAt c := Memory.read_write s.mem a c v h

end Sys2Proof.Machine
end

