-- ==== Sys2Proof/Laws/Ops.lean ====
section
/-! SUPPORT. For each shared operation, what it does, once: the stack, faults, the interrupt check, entry and return. -/

namespace Sys2Proof.Machine

variable (s t : State)

/-! ### Push -/

section Push
variable (v : Byte) (vs : List Byte)

@[simp] theorem State.push_pc : (s.push v).pc = s.pc := rfl
@[simp] theorem State.push_fl : (s.push v).fl = s.fl := rfl
@[simp] theorem State.push_ie : (s.push v).ie = s.ie := rfl
@[simp] theorem State.push_run : (s.push v).run = s.run := rfl
@[simp] theorem State.push_output : (s.push v).output = s.output := rfl
@[simp] theorem State.push_mem : (s.push v).mem = s.mem.write (s.sp - 1#8) v := rfl
@[simp] theorem State.push_sp : (s.push v).sp = s.sp - 1#8 := rfl

theorem State.push_reg (q : Reg) : (s.push v).reg q = if q = .sp then s.sp - 1#8 else s.reg q :=
  State.setReg_reg s .sp q s.pushAddress

@[simp] theorem State.push_reg_other (q : Reg) (h : q ≠ .r7) : (s.push v).reg q = s.reg q := by
  simp [State.push_reg, h]

theorem State.push_byteAt (c : Byte) (h : s.mem.wf = true) :
    (s.push v).byteAt c = if c = s.sp - 1#8 then v else s.byteAt c :=
  State.storeByte_byteAt _ _ _ _ h

@[simp] theorem State.push_wf (h : s.mem.wf = true) : (s.push v).mem.wf = true := by simp [h]

/-! ### Pushes in a row -/

@[simp] theorem State.pushAll_nil : s.pushAll [] = s := rfl
@[simp] theorem State.pushAll_cons : s.pushAll (v :: vs) = (s.push v).pushAll vs := rfl

@[simp] theorem State.pushAll_pc : (s.pushAll vs).pc = s.pc := by
  induction vs generalizing s with
  | nil => rfl
  | cons v vs ih => simp [ih]

@[simp] theorem State.pushAll_fl : (s.pushAll vs).fl = s.fl := by
  induction vs generalizing s with
  | nil => rfl
  | cons v vs ih => simp [ih]

@[simp] theorem State.pushAll_ie : (s.pushAll vs).ie = s.ie := by
  induction vs generalizing s with
  | nil => rfl
  | cons v vs ih => simp [ih]

@[simp] theorem State.pushAll_run : (s.pushAll vs).run = s.run := by
  induction vs generalizing s with
  | nil => rfl
  | cons v vs ih => simp [ih]

@[simp] theorem State.pushAll_output : (s.pushAll vs).output = s.output := by
  induction vs generalizing s with
  | nil => rfl
  | cons v vs ih => simp [ih]

@[simp] theorem State.pushAll_wf (h : s.mem.wf = true) : (s.pushAll vs).mem.wf = true := by
  induction vs generalizing s with
  | nil => exact h
  | cons v vs ih => exact ih _ (State.push_wf s v h)

/-- A row of pushes does not look at the output: it may be replaced before or after. -/
theorem State.pushAll_with_output (out : List CodePoint) :
    ({ s with output := out } : State).pushAll vs = { s.pushAll vs with output := out } := by
  induction vs generalizing s with
  | nil => rfl
  | cons v vs ih => exact ih (s.push v)

@[simp] theorem State.pushAll_reg_other (q : Reg) (h : q ≠ .r7) : (s.pushAll vs).reg q = s.reg q := by
  induction vs generalizing s with
  | nil => rfl
  | cons v vs ih => simp [ih, h]

theorem State.pushAll_sp : (s.pushAll vs).sp = s.sp - BitVec.ofNat 8 vs.length := by
  induction vs generalizing s with
  | nil => simp
  | cons v vs ih =>
    simp only [State.pushAll_cons, ih, State.push_sp, List.length_cons, BitVec.ofNat_add]
    ring

/-- Cells that no push of the row stores to read as before. -/
theorem State.pushAll_byteAt_other (c : Byte) (hw : s.mem.wf = true)
    (h : ∀ k < vs.length, c ≠ s.sp - BitVec.ofNat 8 (k + 1)) : (s.pushAll vs).byteAt c = s.byteAt c := by
  induction vs generalizing s with
  | nil => rfl
  | cons v vs ih =>
    have h0 : c ≠ s.sp - 1#8 := by simpa using h 0 (by simp)
    rw [State.pushAll_cons, ih _ (State.push_wf s v hw) fun k hk => ?_, State.push_byteAt s v c hw, if_neg h0]
    have := h (k + 1) (by simpa using hk)
    rw [State.push_sp]
    convert this using 1
    rw [BitVec.ofNat_add (x := k + 1) (y := 1)]
    ring

/-- The byte pushed after `k` others lies `k + 1` below the old SP, as long as the row does not wrap onto itself. -/
theorem State.pushAll_byteAt (k : Nat) (hw : s.mem.wf = true) (hk : k < vs.length) (hlen : vs.length ≤ 256) :
    (s.pushAll vs).byteAt (s.sp - BitVec.ofNat 8 (k + 1)) = vs[k] := by
  induction vs generalizing s k with
  | nil => simp at hk
  | cons v vs ih =>
    have hlen' : vs.length + 1 ≤ 256 := by simpa using hlen
    cases k with
    | zero =>
      rw [State.pushAll_cons, State.pushAll_byteAt_other _ _ _ (State.push_wf s v hw), State.push_byteAt s v _ hw]
      · simp
      · intro j hj heq
        have h1 : (BitVec.ofNat 8 (j + 1)).toNat = j + 1 := by
          simp only [BitVec.toNat_ofNat]; omega
        rw [State.push_sp] at heq
        have h2 : BitVec.ofNat 8 (j + 1) = 0#8 := by
          have : s.sp - BitVec.ofNat 8 (0 + 1) = s.sp - 1#8 - BitVec.ofNat 8 (j + 1) := heq
          have h3 : s.sp - 1#8 - (s.sp - 1#8 - BitVec.ofNat 8 (j + 1)) = 0#8 := by
            rw [← this]; simp
          simpa using h3
        rw [h2] at h1
        simp at h1
    | succ k =>
      have := ih (s.push v) k (State.push_wf s v hw) (by simpa using hk) (by omega)
      rw [State.push_sp] at this
      rw [State.pushAll_cons, List.getElem_cons_succ, ← this]
      congr 1
      rw [BitVec.ofNat_add (x := k + 1) (y := 1)]
      ring

end Push

/-! ### Pop -/

@[simp] theorem State.dropTop_byteAt (c : Byte) : s.dropTop.byteAt c = s.byteAt c := rfl
@[simp] theorem State.dropTop_pc : s.dropTop.pc = s.pc := rfl
@[simp] theorem State.dropTop_fl : s.dropTop.fl = s.fl := rfl
@[simp] theorem State.dropTop_ie : s.dropTop.ie = s.ie := rfl
@[simp] theorem State.dropTop_run : s.dropTop.run = s.run := rfl
@[simp] theorem State.dropTop_mem : s.dropTop.mem = s.mem := rfl
@[simp] theorem State.dropTop_output : s.dropTop.output = s.output := rfl
@[simp] theorem State.dropTop_sp : s.dropTop.sp = s.sp + 1#8 := rfl

theorem State.dropTop_reg (q : Reg) : s.dropTop.reg q = if q = .sp then s.sp + 1#8 else s.reg q :=
  State.setReg_reg s .sp q (s.sp + 1#8)

/-- A pop into a register: the popped byte in that register, SP one higher unless SP is that register. -/
theorem State.popReg_reg (r q : Reg) :
    (s.popReg r).reg q = if q = r then s.byteAt s.sp else if q = .sp then s.sp + 1#8 else s.reg q := by
  simp only [State.popReg, State.setReg_reg, State.dropTop_reg, State.top]

@[simp] theorem State.popReg_sp (r : Reg) (h : r ≠ .r7) : (s.popReg r).sp = s.sp + 1#8 := by
  simp [State.sp_eq (s.popReg r), State.popReg_reg, h.symm]

@[simp] theorem State.popReg_byteAt (r : Reg) (c : Byte) : (s.popReg r).byteAt c = s.byteAt c := rfl
@[simp] theorem State.popReg_pc (r : Reg) : (s.popReg r).pc = s.pc := rfl
@[simp] theorem State.popReg_fl (r : Reg) : (s.popReg r).fl = s.fl := rfl
@[simp] theorem State.popReg_ie (r : Reg) : (s.popReg r).ie = s.ie := rfl
@[simp] theorem State.popReg_run (r : Reg) : (s.popReg r).run = s.run := rfl
@[simp] theorem State.popReg_mem (r : Reg) : (s.popReg r).mem = s.mem := rfl
@[simp] theorem State.popReg_output (r : Reg) : (s.popReg r).output = s.output := rfl

@[simp] theorem State.popFl_fl : s.popFl.fl = s.byteAt s.sp := rfl
@[simp] theorem State.popFl_reg (q : Reg) : s.popFl.reg q = s.dropTop.reg q := rfl
@[simp] theorem State.popFl_sp : s.popFl.sp = s.sp + 1#8 := rfl
@[simp] theorem State.popFl_ie : s.popFl.ie = s.ie := rfl
@[simp] theorem State.popFl_run : s.popFl.run = s.run := rfl
@[simp] theorem State.popFl_mem : s.popFl.mem = s.mem := rfl
@[simp] theorem State.popFl_output : s.popFl.output = s.output := rfl
@[simp] theorem State.popFl_byteAt (c : Byte) : s.popFl.byteAt c = s.byteAt c := rfl
@[simp] theorem State.popPc_pc : s.popPc.pc = s.byteAt s.sp := rfl
@[simp] theorem State.popPc_reg (q : Reg) : s.popPc.reg q = s.dropTop.reg q := rfl
@[simp] theorem State.popPc_sp : s.popPc.sp = s.sp + 1#8 := rfl
@[simp] theorem State.popPc_byteAt (c : Byte) : s.popPc.byteAt c = s.byteAt c := rfl
@[simp] theorem State.popPc_fl : s.popPc.fl = s.fl := rfl
@[simp] theorem State.popPc_ie : s.popPc.ie = s.ie := rfl
@[simp] theorem State.popPc_run : s.popPc.run = s.run := rfl
@[simp] theorem State.popPc_mem : s.popPc.mem = s.mem := rfl
@[simp] theorem State.popPc_output : s.popPc.output = s.output := rfl

/-! ### Return from interrupt -/

@[simp] theorem interruptReturn_ie : (interruptReturn s).ie = true := by
  simp [interruptReturn, frameRegs]
@[simp] theorem interruptReturn_run : (interruptReturn s).run = s.run := by
  simp [interruptReturn, frameRegs]
@[simp] theorem interruptReturn_mem : (interruptReturn s).mem = s.mem := by
  simp [interruptReturn, frameRegs]
@[simp] theorem interruptReturn_output : (interruptReturn s).output = s.output := by
  simp [interruptReturn, frameRegs]
@[simp] theorem interruptReturn_byteAt (c : Byte) : (interruptReturn s).byteAt c = s.byteAt c := by
  simp [interruptReturn, frameRegs]

/-- Where in the frame a register is restored from, counted from SP; SP itself ends nine higher (60_exceptions.md R118). -/
theorem interruptReturn_reg (r : Reg) :
    (interruptReturn s).reg r =
      match r with
      | .r6 => s.byteAt s.sp
      | .r5 => s.byteAt (s.sp + 1#8)
      | .r4 => s.byteAt (s.sp + 2#8)
      | .r3 => s.byteAt (s.sp + 3#8)
      | .r2 => s.byteAt (s.sp + 4#8)
      | .r1 => s.byteAt (s.sp + 5#8)
      | .r0 => s.byteAt (s.sp + 6#8)
      | .r7 => s.sp + 9#8 := by
  cases r <;>
    simp [interruptReturn, frameRegs, State.popReg_reg, State.dropTop_reg, BitVec.add_assoc]

theorem interruptReturn_fl : (interruptReturn s).fl = s.byteAt (s.sp + 7#8) := by
  simp [interruptReturn, frameRegs, BitVec.add_assoc]

theorem interruptReturn_pc : (interruptReturn s).pc = s.byteAt (s.sp + 8#8) := by
  simp [interruptReturn, frameRegs, BitVec.add_assoc]

theorem interruptReturn_sp : (interruptReturn s).sp = s.sp + 9#8 := interruptReturn_reg s .r7

/-- The return from interrupt as one update of the state: no later proof unfolds the nine pops. -/
theorem interruptReturn_eq :
    interruptReturn s =
      { s with
        regs := ⟨s.byteAt (s.sp + 6#8), s.byteAt (s.sp + 5#8), s.byteAt (s.sp + 4#8), s.byteAt (s.sp + 3#8),
          s.byteAt (s.sp + 2#8), s.byteAt (s.sp + 1#8), s.byteAt s.sp, s.sp + 9#8⟩
        fl := s.byteAt (s.sp + 7#8)
        pc := s.byteAt (s.sp + 8#8)
        ie := true } := by
  refine State.ext_fields _ _ (fun r => ?_) (interruptReturn_pc s) (interruptReturn_fl s) (interruptReturn_ie s)
    (interruptReturn_run s) (interruptReturn_mem s) (interruptReturn_output s)
  rw [interruptReturn_reg]
  cases r <;> rfl

/-- What IRET restores does not depend on the flags it finds. -/
@[simp] theorem interruptReturn_setFl (v : Byte) : interruptReturn (s.setFl v) = interruptReturn s := by
  rw [interruptReturn_eq, interruptReturn_eq]; rfl

/-- What IRET restores does not depend on the interrupt enable it finds (60_exceptions.md R118; D24, log 17). -/
@[simp] theorem interruptReturn_setIe (v : Bool) : interruptReturn (s.setIe v) = interruptReturn s := by
  rw [interruptReturn_eq, interruptReturn_eq]; rfl

/-! ### Faults and the checks before stack operations -/

@[simp] theorem raise_eq (f : Fault) : raise f s = .next (s.setRun (.faulted f)) := rfl

theorem canPush_iff (k : Nat) : s.canPush k = true ↔ k ≤ s.sp.toNat ∧ s.sp.toNat ≤ 0xF5 := by
  simp only [State.canPush, Bool.and_eq_true, decide_eq_true_eq]
  exact Iff.rfl

theorem canPop_iff (k : Nat) : s.canPop k = true ↔ s.sp.toNat + k ≤ 0xF4 := by
  simp only [State.canPop, decide_eq_true_eq]
  exact Iff.rfl

/-- A checked push answers the state it was given, or StackOverflow. -/
theorem checkedPush_cases {src : FaultSource} {k : Nat} {u : State} (h : checkedPush src k s u = .next t) :
    (s.canPush k = true ∧ t = u) ∨
    (s.canPush k = false ∧ t = s.setRun (.faulted (.stackOverflow s.pc src s.sp k))) := by
  unfold checkedPush at h
  split at h
  · cases h; exact .inl ⟨‹_›, rfl⟩
  · cases h; exact .inr ⟨Bool.eq_false_of_not_eq_true ‹¬ _›, rfl⟩

/-- A checked pop answers the state it was given, or StackUnderflow. -/
theorem checkedPop_cases {src : FaultSource} {k : Nat} {u : State} (h : checkedPop src k s u = .next t) :
    (s.canPop k = true ∧ t = u) ∨
    (s.canPop k = false ∧ t = s.setRun (.faulted (.stackUnderflow s.pc src s.sp k))) := by
  unfold checkedPop at h
  split at h
  · cases h; exact .inl ⟨‹_›, rfl⟩
  · cases h; exact .inr ⟨Bool.eq_false_of_not_eq_true ‹¬ _›, rfl⟩

theorem checkedPush_isNext (src : FaultSource) (k : Nat) (u : State) : ∃ t, checkedPush src k s u = .next t := by
  unfold checkedPush; split <;> exact ⟨_, rfl⟩

theorem checkedPop_isNext (src : FaultSource) (k : Nat) (u : State) : ∃ t, checkedPop src k s u = .next t := by
  unfold checkedPop; split <;> exact ⟨_, rfl⟩

/-! ### The interrupt check -/

/-- The line found is set, and no lower one is. -/
theorem lowestLine_eq_some (p : Byte) (i : Line) :
    lowestLine p = some i ↔ p.getLsbD i.val = true ∧ ∀ j : Line, j < i → p.getLsbD j.val = false := by
  revert p i; decide

theorem lowestLine_eq_none (p : Byte) : lowestLine p = none ↔ p = 0#8 := by
  revert p; decide

/-- A single bit, read back. -/
theorem lineBit_getLsbD (i j : Line) : (lineBit i).getLsbD j.val = decide (j = i) := by
  revert i j; decide

theorem interruptCheck_disabled (h : s.ie = false) : interruptCheck s = none := by
  simp [interruptCheck, h]

theorem interruptCheck_nothing (h : s.reg .is &&& s.reg .im = 0#8) : interruptCheck s = none := by
  unfold interruptCheck
  split
  · exact (lowestLine_eq_none _).2 h
  · rfl

theorem interruptCheck_eq_some (i : Line) :
    interruptCheck s = some i ↔
      s.ie = true ∧ (s.reg .is &&& s.reg .im).getLsbD i.val = true ∧
        ∀ j : Line, j < i → (s.reg .is &&& s.reg .im).getLsbD j.val = false := by
  unfold interruptCheck
  split
  · next h => simp [h, lowestLine_eq_some]
  · next h => simp [h]

/-! ### Interrupt entry -/

section Entry
variable (i : Line) (vector : Byte)

@[simp] theorem enterHandler_pc : (enterHandler i vector s).pc = vector := rfl
@[simp] theorem enterHandler_fl : (enterHandler i vector s).fl = s.fl := by simp [enterHandler]
@[simp] theorem enterHandler_ie : (enterHandler i vector s).ie = false := by simp [enterHandler]
@[simp] theorem enterHandler_run : (enterHandler i vector s).run = s.run := by simp [enterHandler]
@[simp] theorem enterHandler_output : (enterHandler i vector s).output = s.output := by simp [enterHandler]

@[simp] theorem enterHandler_wf (h : s.mem.wf = true) : (enterHandler i vector s).mem.wf = true := by
  simp only [enterHandler, State.jumpTo_mem]
  exact State.pushAll_wf _ _ (by simpa using h)

theorem enterHandler_sp : (enterHandler i vector s).sp = s.sp - 9#8 := by
  simp only [enterHandler, State.jumpTo_sp, State.pushAll_sp]
  rfl

theorem enterHandler_is : (enterHandler i vector s).reg .is = s.reg .is &&& ~~~ lineBit i := by
  simp [enterHandler]

theorem enterHandler_reg_other (q : Reg) (h6 : q ≠ .r6) (h7 : q ≠ .r7) :
    (enterHandler i vector s).reg q = s.reg q := by
  simp [enterHandler, h6, h7]

/-- The frame (60_exceptions.md R115): byte `k` of the pushed list lies `k + 1` below the old SP. -/
theorem enterHandler_frame (h : s.mem.wf = true) (k : Nat) (hk : k < 9) :
    (enterHandler i vector s).byteAt (s.sp - BitVec.ofNat 8 (k + 1)) =
      (interruptFrame ((s.setIe false).setReg .is (s.reg .is &&& ~~~ lineBit i)))[k]'(by
        simpa [interruptFrame, frameRegs] using hk) := by
  simp only [enterHandler, State.jumpTo_byteAt]
  exact State.pushAll_byteAt _ _ k (by simpa using h) _ (by simp [interruptFrame, frameRegs])

/-- Cells outside the frame read as before. -/
theorem enterHandler_byteAt_other (h : s.mem.wf = true) (c : Byte)
    (hc : ∀ k < 9, c ≠ s.sp - BitVec.ofNat 8 (k + 1)) : (enterHandler i vector s).byteAt c = s.byteAt c := by
  simp only [enterHandler, State.jumpTo_byteAt]
  rw [State.pushAll_byteAt_other _ _ _ (by simpa using h)]
  · rfl
  · intro k hk
    exact hc k (by simpa [interruptFrame, frameRegs] using hk)

end Entry

/-- An entry either faults on the vector, faults on the stack, or enters the handler (60_exceptions.md R107, R114). -/
theorem interruptEntry_cases {i : Line} (h : interruptEntry i s = .next t) :
    (s.byteAt (vectorAddress i) = missingVector ∧
      t = s.setRun (.faulted (.interruptVectorMissing i (vectorAddress i) s.pc))) ∨
    (s.byteAt (vectorAddress i) ≠ missingVector ∧ s.canPush 9 = true ∧
      t = enterHandler i (s.byteAt (vectorAddress i)) s) ∨
    (s.byteAt (vectorAddress i) ≠ missingVector ∧ s.canPush 9 = false ∧
      t = s.setRun (.faulted (.stackOverflow s.pc (.interruptEntry i) s.sp 9))) := by
  unfold interruptEntry at h
  dsimp only at h
  split at h
  · next hv => cases h; exact .inl ⟨hv, rfl⟩
  · next hv =>
    rcases checkedPush_cases s t h with ⟨hp, ht⟩ | ⟨hp, ht⟩
    · exact .inr (.inl ⟨hv, hp, ht⟩)
    · exact .inr (.inr ⟨hv, hp, ht⟩)

theorem interruptEntry_isNext (i : Line) : ∃ t, interruptEntry i s = .next t := by
  unfold interruptEntry
  dsimp only
  split
  · exact ⟨_, rfl⟩
  · exact checkedPush_isNext _ _ _ _

end Sys2Proof.Machine
end

