-- ==== Sys2Proof/Laws/Exec.lean ====
section
/-! SUPPORT. The meanings and the step: what each can answer, said once. -/

namespace Sys2Proof.Machine

@[simp] theorem aluAdd_eq (a b : Byte) : aluAdd a b = a + b := by
  simp [aluAdd, wrap, BitVec.ofNat_add]

@[simp] theorem aluMul_eq (a b : Byte) : aluMul a b = a * b := by
  simp [aluMul, wrap, BitVec.ofNat_mul]

@[simp] theorem regOperand_eq (s : State) (r : Reg) : regOperand s r = s.reg r := rfl
@[simp] theorem immOperand_eq (imm : Byte) : immOperand imm = imm := rfl
@[simp] theorem storeAddress_eq (s : State) (r : Reg) : storeAddress s r = s.reg r := rfl
@[simp] theorem jumpTarget_eq (s : State) (r : Reg) : jumpTarget s r = s.reg r := rfl
@[simp] theorem returnAddress_eq (s : State) : returnAddress s = s.pc + 2#8 := rfl

/-- Every instruction answers a next state: the machine has no undefined behaviour (93_implementation_defined.md part 1). -/
theorem exec_isNext (i : Instr) (s : State) : ∃ t, exec i s = .next t := by
  cases i <;> simp only [exec] <;> first
    | exact ⟨_, rfl⟩
    | exact checkedPush_isNext _ _ _ _
    | exact checkedPop_isNext _ _ _ _
    | (simp only [execJeq, execJne]; split <;> exact ⟨_, rfl⟩)

/-- What one cycle of a running machine is. -/
theorem stepWith_running (m : OpcodeMap) (s : State) (h : s.run = .running) :
    stepWith m s = match interruptCheck s with
      | some i => interruptEntry i s
      | none => fetchExecuteWith m s := by
  unfold stepWith
  split <;> first | rfl | simp_all

/-- A stopped machine's cycle changes nothing (40_cycle_decode.md R61). -/
theorem stepWith_stopped (m : OpcodeMap) (s : State) (h : s.run ≠ .running) : stepWith m s = .next s := by
  unfold stepWith
  split <;> simp_all

/-- A running machine with no interrupt to serve runs what its bytes decode to. -/
theorem stepWith_ok {m : OpcodeMap} {s : State} {i : Instr} (hr : s.run = .running) (hc : interruptCheck s = none)
    (h : decodeWith m (fetch s) = .ok i) : stepWith m s = exec i s := by
  rw [stepWith_running m s hr, hc]
  simp only [fetchExecuteWith, h]

/-- A running machine with no interrupt to serve takes the fault its bytes decode to. -/
theorem stepWith_error {m : OpcodeMap} {s : State} {e : DecodeError} (hr : s.run = .running)
    (hc : interruptCheck s = none) (h : decodeWith m (fetch s) = .error e) :
    stepWith m s = .next (s.setRun (.faulted (decodeFault s.pc e))) := by
  rw [stepWith_running m s hr, hc]
  simp only [fetchExecuteWith, h, raise_eq]

/-- Everything a cycle can be: nothing, an interrupt entry, a decode fault, or one instruction. -/
theorem stepWith_cases {m : OpcodeMap} {s t : State} (h : stepWith m s = .next t) :
    (s.run ≠ .running ∧ t = s) ∨
    (s.run = .running ∧ ∃ i, interruptCheck s = some i ∧ interruptEntry i s = .next t) ∨
    (s.run = .running ∧ interruptCheck s = none ∧
      ∃ e, decodeWith m (fetch s) = .error e ∧ t = s.setRun (.faulted (decodeFault s.pc e))) ∨
    (s.run = .running ∧ interruptCheck s = none ∧ ∃ i, decodeWith m (fetch s) = .ok i ∧ exec i s = .next t) := by
  by_cases hr : s.run = .running
  · rw [stepWith_running m s hr] at h
    split at h
    · next i hi => exact .inr (.inl ⟨hr, i, hi, h⟩)
    · next hn =>
      unfold fetchExecuteWith at h
      split at h
      · next e he => cases h; exact .inr (.inr (.inl ⟨hr, hn, e, he, rfl⟩))
      · next i hi => exact .inr (.inr (.inr ⟨hr, hn, i, hi, h⟩))
  · rw [stepWith_stopped m s hr] at h
    cases h
    exact .inl ⟨hr, rfl⟩

/-! The same of `step`, the cycle under the default map. -/

theorem step_eq (s : State) : step s = stepWith opcodeMap s := rfl

theorem step_running (s : State) (h : s.run = .running) :
    step s = match interruptCheck s with
      | some i => interruptEntry i s
      | none => fetchExecute s := by
  rw [step_eq, stepWith_running opcodeMap s h]
  rfl

theorem step_stopped (s : State) (h : s.run ≠ .running) : step s = .next s := stepWith_stopped opcodeMap s h

theorem step_ok {s : State} {i : Instr} (hr : s.run = .running) (hc : interruptCheck s = none)
    (h : decode (fetch s) = .ok i) : step s = exec i s := stepWith_ok hr hc h

theorem step_error {s : State} {e : DecodeError} (hr : s.run = .running) (hc : interruptCheck s = none)
    (h : decode (fetch s) = .error e) : step s = .next (s.setRun (.faulted (decodeFault s.pc e))) := stepWith_error hr hc h

theorem step_cases {s t : State} (h : step s = .next t) :
    (s.run ≠ .running ∧ t = s) ∨
    (s.run = .running ∧ ∃ i, interruptCheck s = some i ∧ interruptEntry i s = .next t) ∨
    (s.run = .running ∧ interruptCheck s = none ∧
      ∃ e, decode (fetch s) = .error e ∧ t = s.setRun (.faulted (decodeFault s.pc e))) ∨
    (s.run = .running ∧ interruptCheck s = none ∧ ∃ i, decode (fetch s) = .ok i ∧ exec i s = .next t) :=
  stepWith_cases h

/-- JEQ and JNE on each side of the EQUAL bit. -/
theorem exec_jeq_taken (a : Reg) (s : State) (h : s.fl.getLsbD 0 = true) :
    exec (.jeq a) s = .next (s.jumpTo (s.reg a)) := if_pos h

theorem exec_jeq_not_taken (a : Reg) (s : State) (h : s.fl.getLsbD 0 = false) :
    exec (.jeq a) s = .next (s.advance 2) := if_neg (by rw [equalSet, h]; decide)

theorem exec_jne_taken (a : Reg) (s : State) (h : s.fl.getLsbD 0 = false) :
    exec (.jne a) s = .next (s.jumpTo (s.reg a)) := if_neg (by rw [equalSet, h]; decide)

theorem exec_jne_not_taken (a : Reg) (s : State) (h : s.fl.getLsbD 0 = true) :
    exec (.jne a) s = .next (s.advance 2) := if_pos h

/-- A JEQ is a jump or an advance. -/
theorem execJeq_eq (a : Reg) (s : State) :
    execJeq a s = .next (if equalSet s.fl then s.jumpTo (s.reg a) else s.advance 2) := by
  unfold execJeq; split <;> rfl

/-- A JNE is an advance or a jump. -/
theorem execJne_eq (a : Reg) (s : State) :
    execJne a s = .next (if equalSet s.fl then s.advance 2 else s.jumpTo (s.reg a)) := by
  unfold execJne; split <;> rfl

/-- Each of the three values CMP can write. -/
theorem compareFlags_cases (a b : Byte) :
    (a = b ∧ compareFlags a b = 0x01#8) ∨ (b.toNat < a.toNat ∧ compareFlags a b = 0x02#8) ∨
    (a.toNat < b.toNat ∧ compareFlags a b = 0x04#8) := by
  unfold compareFlags
  split
  · exact .inl ⟨‹_›, rfl⟩
  · next hne =>
    split
    · exact .inr (.inl ⟨‹_›, rfl⟩)
    · have : a.toNat ≠ b.toNat := fun h => hne (BitVec.eq_of_toNat_eq h)
      exact .inr (.inr ⟨by omega, rfl⟩)

/-- Every code point PRN emits is below 256. -/
theorem prnCodePoints_lt (v : Byte) : ∀ c ∈ prnCodePoints v, c < 256 := by
  revert v; decide

end Sys2Proof.Machine
end

