-- ==== Sys2Proof/Laws/PerInstr.lean ====
section
/-! SUPPORT. Facts about every instruction as syntax, one lemma per constructor. -/

namespace Sys2Proof.Laws

/-- The operand bytes an instruction encodes to decode, after any opcode byte, to that instruction, whatever bytes follow:
the operand half of the round trip, for each instruction (30_encoding.md R47, R52). -/
def OperandsRoundTrip.Statement (i : Instr) : Prop :=
  ∀ (op : Byte) (rest : List Byte), decodeOperands i.mnemonic (Fetched.ofBytes (op :: (i.operandBytes ++ rest))) = .ok i

namespace OperandsRoundTrip

theorem ofBytes_a (op x : Byte) (rest : List Byte) : (Fetched.ofBytes (op :: x :: rest)).a = x := by
  cases rest <;> rfl

theorem hlt : Statement .hlt := fun _ _ => rfl
theorem ret : Statement .ret := fun _ _ => rfl
theorem iret : Statement .iret := fun _ _ => rfl
theorem pra (a : Reg) : Statement (.pra a) := fun _ _ => decodeRegA_ok _ (ofBytes_a _ _ _)
theorem prn (a : Reg) : Statement (.prn a) := fun _ _ => decodeRegA_ok _ (ofBytes_a _ _ _)
theorem call (a : Reg) : Statement (.call a) := fun _ _ => decodeRegA_ok _ (ofBytes_a _ _ _)
theorem pop (a : Reg) : Statement (.pop a) := fun _ _ => decodeRegA_ok _ (ofBytes_a _ _ _)
theorem push (a : Reg) : Statement (.push a) := fun _ _ => decodeRegA_ok _ (ofBytes_a _ _ _)
theorem jmp (a : Reg) : Statement (.jmp a) := fun _ _ => decodeRegA_ok _ (ofBytes_a _ _ _)
theorem jeq (a : Reg) : Statement (.jeq a) := fun _ _ => decodeRegA_ok _ (ofBytes_a _ _ _)
theorem jne (a : Reg) : Statement (.jne a) := fun _ _ => decodeRegA_ok _ (ofBytes_a _ _ _)
theorem ldi (a : Reg) (imm : Byte) : Statement (.ldi a imm) := fun _ _ => decodeRegA_ok _ rfl
theorem st (a b : Reg) : Statement (.st a b) := fun _ _ => decodeRegAB_ok _ rfl rfl
theorem cmp (a b : Reg) : Statement (.cmp a b) := fun _ _ => decodeRegAB_ok _ rfl rfl
theorem add (a b : Reg) : Statement (.add a b) := fun _ _ => decodeRegAB_ok _ rfl rfl
theorem mul (a b : Reg) : Statement (.mul a b) := fun _ _ => decodeRegAB_ok _ rfl rfl

end OperandsRoundTrip

end Sys2Proof.Laws
end

