-- ==== Sys2Proof/Tests/Slice0.lean ====
section
/-! SUPPORT. The model's own tests, expected values from spec/95_test_vectors.md and the rules' worked examples, and one
witness for the hypotheses of every statement. -/

namespace Sys2Proof.Tests

open Sys2Proof.Machine

/-! ### Helpers -/

/-- The state a result holds. -/
def after (r : Result) : Option State :=
  match r with
  | .next t => some t
  | .fault _ => none
  | .refused _ => none

/-- One observation of the state after one step. -/
def see {α : Type} (s : State) (f : State → α) : Option α := (after (step s)).map f

/-- Bytes placed at an address. -/
def place (addr : Nat) (bytes : List Byte) (s : State) : State := { s with mem := loadFrom addr bytes s.mem }

/-- The reset state with these bytes at pc = 0. -/
def prog (bytes : List Byte) : State := State.boot bytes

/-- A register set by hand. -/
def reg (r : Reg) (v : Byte) (s : State) : State := s.setReg r v

/-! ### WellFormed: one ill-formed tuple for each check -/

theorem test_wellFormed_accepts : Fetched.wellFormed opcodeMap ⟨0xA8#8, 0x07#8, 0x07#8⟩ = true := by decide
theorem test_wellFormed_immediate_unchecked : Fetched.wellFormed opcodeMap ⟨0x99#8, 0x00#8, 0xFF#8⟩ = true := by decide
theorem test_wellFormed_refuses_opcode : Fetched.wellFormed opcodeMap ⟨0x98#8, 0x00#8, 0x00#8⟩ = false := by decide
theorem test_wellFormed_refuses_operand_a : Fetched.wellFormed opcodeMap ⟨0x99#8, 0x08#8, 0x01#8⟩ = false := by decide
theorem test_wellFormed_refuses_operand_b : Fetched.wellFormed opcodeMap ⟨0xA8#8, 0x00#8, 0x08#8⟩ = false := by decide

/-! ### Decode: words written out bit by bit from the column "encoding" of spec/opcode_table.json -/

theorem test_decode_hlt : decode ⟨0b00000001#8, 0#8, 0#8⟩ = .ok .hlt := by decide
theorem test_decode_ret : decode ⟨0b00001001#8, 0#8, 0#8⟩ = .ok .ret := by decide
theorem test_decode_iret : decode ⟨0b00001011#8, 0#8, 0#8⟩ = .ok .iret := by decide
theorem test_decode_pra : decode ⟨0b01000010#8, 0b00000001#8, 0#8⟩ = .ok (.pra .r1) := by decide
theorem test_decode_prn : decode ⟨0b01000011#8, 0b00000010#8, 0#8⟩ = .ok (.prn .r2) := by decide
theorem test_decode_call : decode ⟨0b01001000#8, 0b00000011#8, 0#8⟩ = .ok (.call .r3) := by decide
theorem test_decode_pop : decode ⟨0b01001100#8, 0b00000100#8, 0#8⟩ = .ok (.pop .r4) := by decide
theorem test_decode_push : decode ⟨0b01001101#8, 0b00000101#8, 0#8⟩ = .ok (.push .r5) := by decide
theorem test_decode_jmp : decode ⟨0b01010000#8, 0b00000110#8, 0#8⟩ = .ok (.jmp .r6) := by decide
theorem test_decode_jeq : decode ⟨0b01010001#8, 0b00000111#8, 0#8⟩ = .ok (.jeq .r7) := by decide
theorem test_decode_jne : decode ⟨0b01010010#8, 0b00000000#8, 0#8⟩ = .ok (.jne .r0) := by decide
theorem test_decode_ldi : decode ⟨0b10011001#8, 0b00000001#8, 0b11111111#8⟩ = .ok (.ldi .r1 0xFF#8) := by decide
theorem test_decode_st : decode ⟨0b10011010#8, 0b00000010#8, 0b00000011#8⟩ = .ok (.st .r2 .r3) := by decide
theorem test_decode_cmp : decode ⟨0b10100000#8, 0b00000100#8, 0b00000101#8⟩ = .ok (.cmp .r4 .r5) := by decide
theorem test_decode_add : decode ⟨0b10101000#8, 0b00000110#8, 0b00000111#8⟩ = .ok (.add .r6 .r7) := by decide
theorem test_decode_mul : decode ⟨0b10101010#8, 0b00000001#8, 0b00000000#8⟩ = .ok (.mul .r1 .r0) := by decide

/-- V-D5, V-D9, V-D10: rejected by name, operand A before operand B. -/
theorem test_decode_rejects_by_name :
    decode ⟨0xC0#8, 0#8, 0#8⟩ = .error (.invalidOpcode 0xC0#8) ∧
    decode ⟨0xA8#8, 0x00#8, 0x08#8⟩ = .error (.invalidRegisterIndex 0xA8#8 .b 0x08#8) ∧
    decode ⟨0xA8#8, 0x09#8, 0x0A#8⟩ = .error (.invalidRegisterIndex 0xA8#8 .a 0x09#8) := by decide

/-- The table word of LDI R1, 0xFF: opcode in bits 7:0, operand A in 15:8, the immediate in 23:16. -/
theorem test_decodeTableWord : decodeTableWord 24 0xFF0199 = some (.ldi .r1 0xFF#8) ∧ decodeTableWord 8 0x00 = none := by decide

/-- CA1's [LDI,0,8] is the bytes 99 00 08 (R53). -/
theorem test_encode : encode (.ldi .r0 0x08#8) = [0x99#8, 0x00#8, 0x08#8] ∧ encode .hlt = [0x01#8] := by decide

/-- A fetched table word is what the next step runs, as the first instruction after reset. -/
theorem test_withFetchWord :
    see (State.reset.withFetchWord 24 0xFF0199) (fun t => (t.reg .r1, t.pc)) = some (0xFF#8, 0x03#8) := by decide

/-! ### Instructions, one step each -/

/-- V-A1. -/
theorem test_add_wraps :
    see (reg .r1 100#8 (reg .r0 200#8 (prog [0xA8#8, 0#8, 1#8]))) (fun t => (t.reg .r0, t.reg .r1, t.pc)) =
      some (44#8, 100#8, 3#8) := by decide

/-- V-A6: the same register twice. -/
theorem test_add_same_register :
    see (reg .r0 128#8 (prog [0xA8#8, 0#8, 0#8])) (fun t => (t.reg .r0, t.fl)) = some (0#8, 0#8) := by decide

/-- V-A10. -/
theorem test_mul_wraps :
    see (reg .r1 255#8 (reg .r0 255#8 (prog [0xAA#8, 0#8, 1#8]))) (fun t => t.reg .r0) = some 1#8 := by decide

/-- V-A18: unsigned. -/
theorem test_cmp_unsigned :
    see (reg .r3 127#8 (reg .r2 128#8 (prog [0xA0#8, 2#8, 3#8]))) (fun t => t.fl) = some 0x02#8 := by decide

/-- V-A21: bits 7:3 are cleared. -/
theorem test_cmp_clears_reserved :
    see ((reg .r3 2#8 (reg .r2 1#8 (prog [0xA0#8, 2#8, 3#8]))).setFl 0xFF#8) (fun t => t.fl) = some 0x04#8 := by decide

/-- V-S9: PUSH R7 stores the old SP. -/
theorem test_push_sp :
    see (prog [0x4D#8, 7#8]) (fun t => (t.sp, t.byteAt 0xF3#8, t.pc)) = some (0xF3#8, 0xF4#8, 2#8) := by decide

/-- V-S3. -/
theorem test_push_overflow :
    see (reg .r7 0x00#8 (prog [0x4D#8, 0#8])) (fun t => (t.run, t.sp, t.pc)) =
      some (.faulted (.stackOverflow 0#8 (.instruction 0x4D#8) 0x00#8 1), 0x00#8, 0#8) := by decide

/-- V-S6: the popped cell stays. -/
theorem test_pop :
    see (place 0xF3 [0x05#8] (reg .r7 0xF3#8 (prog [0x4C#8, 1#8]))) (fun t => (t.reg .r1, t.sp, t.byteAt 0xF3#8)) =
      some (0x05#8, 0xF4#8, 0x05#8) := by decide

/-- V-S11: POP R7 ends with the popped byte. -/
theorem test_pop_sp :
    see (place 0xF3 [0xFF#8] (reg .r7 0xF3#8 (prog [0x4C#8, 7#8]))) (fun t => t.sp) = some 0xFF#8 := by decide

/-- V-D11: LDI R7 has no stack check. -/
theorem test_ldi_sp : see (prog [0x99#8, 7#8, 0xFF#8]) (fun t => (t.sp, t.pc)) = some (0xFF#8, 3#8) := by decide

/-- V-D16: operands and pc wrap at the top of memory. -/
theorem test_ldi_wraps :
    see (place 0xFE [0x99#8, 0x02#8] { prog [0x2A#8] with pc := 0xFE#8 }) (fun t => (t.reg .r2, t.pc)) =
      some (0x2A#8, 0x01#8) := by decide

/-- V-M6: ST installs a vector. -/
theorem test_st :
    see (reg .r1 0x20#8 (reg .r0 0xF8#8 (prog [0x9A#8, 0#8, 1#8]))) (fun t => (t.byteAt 0xF8#8, t.pc)) =
      some (0x20#8, 3#8) := by decide

/-- V-M9: three digits. -/
theorem test_prn_hundred :
    see (reg .r0 0x64#8 (prog [0x43#8, 0#8])) (fun t => t.output) = some [0x31, 0x30, 0x30, 0x0A] := by decide

/-- V-M7: zero is one digit. -/
theorem test_prn_zero : see (prog [0x43#8, 0#8]) (fun t => t.output) = some [0x30, 0x0A] := by decide

/-- V-M13. -/
theorem test_pra : see (reg .r0 0xE9#8 (prog [0x42#8, 0#8])) (fun t => (t.output, t.pc)) = some ([0xE9], 2#8) := by decide

/-- V-C2. -/
theorem test_jmp : see (reg .r2 0xFF#8 (prog [0x50#8, 2#8])) (fun t => t.pc) = some 0xFF#8 := by decide

/-- V-C9: only bit 0 is read. -/
theorem test_jeq_taken : see ((reg .r3 0x20#8 (prog [0x51#8, 3#8])).setFl 0xF9#8) (fun t => t.pc) = some 0x20#8 := by decide

/-- V-C4. -/
theorem test_jeq_not_taken : see ((reg .r3 0x20#8 (prog [0x51#8, 3#8])).setFl 0x04#8) (fun t => t.pc) = some 0x02#8 := by decide

/-- V-C6. -/
theorem test_jne_taken : see ((reg .r3 0x0C#8 (prog [0x52#8, 3#8])).setFl 0x02#8) (fun t => t.pc) = some 0x0C#8 := by decide

/-- V-C7. -/
theorem test_jne_not_taken : see ((reg .r3 0x0C#8 (prog [0x52#8, 3#8])).setFl 0x01#8) (fun t => t.pc) = some 0x02#8 := by decide

/-- V-C13: CALL R7 goes to the old SP. -/
theorem test_call_sp :
    see (prog [0x48#8, 7#8]) (fun t => (t.pc, t.sp, t.byteAt 0xF3#8)) = some (0xF4#8, 0xF3#8, 0x02#8) := by decide

/-- V-C11: the return address wraps. -/
theorem test_call_wraps :
    see (place 0xFE [0x48#8, 1#8] (reg .r1 0x10#8 { prog [] with pc := 0xFE#8 })) (fun t => (t.pc, t.byteAt 0xF3#8)) =
      some (0x10#8, 0x00#8) := by decide

/-- V-C14. -/
theorem test_ret :
    see (place 0xF3 [0x08#8] (reg .r7 0xF3#8 (prog [0x09#8]))) (fun t => (t.pc, t.sp)) = some (0x08#8, 0xF4#8) := by decide

/-- P7b. -/
theorem test_ret_underflow :
    see (prog [0x09#8]) (fun t => t.run) = some (.faulted (.stackUnderflow 0#8 (.instruction 0x09#8) 0xF4#8 1)) := by decide

/-- V-C17: HLT at 0xFF. -/
theorem test_hlt_wraps :
    see (place 0xFF [0x01#8] { prog [] with pc := 0xFF#8 }) (fun t => (t.run, t.pc)) = some (.halted, 0x00#8) := by decide

/-- The state of V-I11, the bytes at SP as listed there. -/
def iretState : State :=
  place 0xEB [0x00#8, 0x01#8, 0x00#8, 0x00#8, 0x0F#8, 0x20#8, 0xF8#8, 0x00#8, 0x0F#8]
    (reg .r7 0xEB#8 { prog [0x0B#8] with ie := false })

/-- V-I11. -/
theorem test_iret :
    see iretState (fun t => ([Reg.r6, .r5, .r4, .r3, .r2, .r1, .r0].map t.reg, t.fl, t.pc, t.sp, t.ie)) =
      some ([0x00#8, 0x01#8, 0x00#8, 0x00#8, 0x0F#8, 0x20#8, 0xF8#8], 0x00#8, 0x0F#8, 0xF4#8, true) := by decide

/-- V-I10. -/
theorem test_iret_underflow :
    see (reg .r7 0xEC#8 (prog [0x0B#8])) (fun t => (t.run, t.sp)) =
      some (.faulted (.stackUnderflow 0#8 (.instruction 0x0B#8) 0xEC#8 9), 0xEC#8) := by decide

/-! ### Faults and interrupts -/

/-- V-D4: there is no no-op. -/
theorem test_zero_is_illegal : see (prog []) (fun t => (t.run, t.pc)) = some (.faulted (.invalidOpcode 0#8 0#8), 0#8) := by decide

/-- V-D14: a bad register index before a stack fault. -/
theorem test_register_fault_before_stack_fault :
    see (reg .r7 0x00#8 (prog [0x4D#8, 0x09#8])) (fun t => t.run) =
      some (.faulted (.invalidRegisterIndex 0#8 0x4D#8 .a 0x09#8)) := by decide

/-- The state of V-I8, the byte at pc being an illegal opcode (V-I9). -/
def entryState : State :=
  place 0xF8 [0x20#8]
    { State.reset with
      regs := ⟨0x11#8, 0x22#8, 0x33#8, 0x44#8, 0x55#8, 0x01#8, 0x01#8, 0x09#8⟩
      pc := 0x50#8
      fl := 0x04#8 }

/-- V-I8: the frame, byte by byte from address 8 down to 0. -/
theorem test_entry :
    see entryState (fun t => ([8#8, 7#8, 6#8, 5#8, 4#8, 3#8, 2#8, 1#8, 0#8].map t.byteAt, t.sp, t.pc, t.ie, t.reg .is)) =
      some ([0x50#8, 0x04#8, 0x11#8, 0x22#8, 0x33#8, 0x44#8, 0x55#8, 0x01#8, 0x00#8], 0x00#8, 0x20#8, false, 0x00#8) := by decide

/-- V-I6: no vector. -/
theorem test_entry_without_vector :
    see (reg .is 1#8 (reg .im 1#8 (prog []))) (fun t => (t.run, t.reg .is, t.ie, t.sp)) =
      some (.faulted (.interruptVectorMissing 0 0xF8#8 0#8), 0x01#8, true, 0xF4#8) := by decide

/-- V-I4: line 0 is masked, so line 3 is served through 0xFB. -/
theorem test_entry_masked_line :
    see (place 0xFB [0x38#8] (reg .is 9#8 (reg .im 8#8 (prog [])))) (fun t => (t.pc, t.reg .is)) = some (0x38#8, 0x01#8) := by decide

/-- V-I13: a halted machine takes no interrupt. -/
theorem test_halted_does_nothing :
    see (place 0xF8 [0x20#8] (reg .is 1#8 (reg .im 1#8 { prog [] with run := .halted }))) (fun t => (t.run, t.pc)) =
      some (.halted, 0#8) := by decide

/-- R7: a raise sets one bit. -/
theorem test_raise : (raiseInterrupt 3 (reg .is 1#8 State.reset)).reg .is = 0x09#8 := by decide

/-! ### Witnesses: a concrete case that meets the hypotheses of each statement, at the boundaries of its ranges

The statements without hypotheses need none. -/

/-- Another OPCODE_MAP that meets the constraints of R49: opcodes counted up within each length. -/
def countedMap : OpcodeMap
  | .hlt => 0x00#8
  | .ret => 0x01#8
  | .iret => 0x02#8
  | .pra => 0x40#8
  | .prn => 0x41#8
  | .call => 0x42#8
  | .pop => 0x43#8
  | .push => 0x44#8
  | .jmp => 0x45#8
  | .jeq => 0x46#8
  | .jne => 0x47#8
  | .ldi => 0x80#8
  | .st => 0x81#8
  | .cmp => 0x82#8
  | .add => 0x83#8
  | .mul => 0x84#8

/-- For every statement with a map that meets the constraints: `LengthIsTopTwoBitsPlusOne`,
`DecodeOfEncodeIsTheInstruction`, `DecoderIsTotalAndOrdered`, `WellFormedExactlyWhenDecodable`. -/
theorem witness_legalMap : countedMap.Legal :=
  ⟨by intro x y; cases x <;> cases y <;> simp [countedMap], by intro x; cases x <;> decide⟩

theorem witness_DefaultOpcodeMapIsLegal : topTwoBits 0xC0#8 = 3 ∧ topTwoBits 0xFF#8 = 3 := by decide

theorem witness_DecodedBytesBeginWithTheEncoding : decodeWith countedMap ⟨0x80#8, 7#8, 0xFF#8⟩ = .ok (.ldi .r7 0xFF#8) := by decide

theorem witness_DecoderIsTotalAndOrdered_opcode : ∀ x, countedMap x ≠ 0xFF#8 := by intro x; cases x <;> decide

theorem witness_DecoderIsTotalAndOrdered_operands :
    (countedMap .pra = 0x40#8 ∧ Mnemonic.pra.format.hasRegA = true ∧ 7 < (8#8 : Byte).toNat) ∧
    (countedMap .add = 0x83#8 ∧ Mnemonic.add.format.hasRegB = true ∧ (7#8 : Byte).toNat ≤ 7 ∧ 7 < (8#8 : Byte).toNat) := by decide

theorem witness_BytesPastTheOperandsAreIgnored :
    decode ⟨0x01#8, 0xFF#8, 0xFF#8⟩ = .ok .hlt ∧ (Instr.hlt).operandBytes.length = 0 ∧
    decode ⟨0x43#8, 0x07#8, 0xFF#8⟩ = .ok (.prn .r7) ∧ (Instr.prn .r7).operandBytes.length = 1 := by decide

theorem witness_ReadReturnsTheMostRecentWrite : (⟨[(0, 1#8), (255, 2#8)]⟩ : Memory).wf = true := by decide

theorem witness_BootPlacesTheImage : (List.replicate 256 (0x01#8 : Byte)).length ≤ 256 ∧ ([0x01#8] : List Byte).length ≤ (0xFF#8 : Byte).toNat :=
  ⟨Nat.le_of_eq List.length_replicate, by decide⟩

/-- ST to the opcode byte, operand A and operand B of the instruction that follows it at 3. -/
theorem witness_FetchSeesTheStoredByte :
    (prog [0x9A#8, 0#8, 1#8]).mem.wf = true ∧
    (reg .r0 3#8 (prog [0x9A#8, 0#8, 1#8])).reg .r0 = (prog [0x9A#8, 0#8, 1#8]).pc + 3#8 ∧
    (reg .r0 4#8 (prog [0x9A#8, 0#8, 1#8])).reg .r0 = (prog [0x9A#8, 0#8, 1#8]).pc + 3#8 + 1#8 ∧
    (reg .r0 5#8 (prog [0x9A#8, 0#8, 1#8])).reg .r0 = (prog [0x9A#8, 0#8, 1#8]).pc + 3#8 + 2#8 := by decide

theorem witness_StepRunsTheDecodedInstruction :
    (prog [0x01#8]).run = .running ∧ interruptCheck (prog [0x01#8]) = none ∧ decode (fetch (prog [0x01#8])) = .ok .hlt ∧
    encode .hlt ++ [0#8, 0#8] = (fetch (prog [0x01#8])).bytes := by decide

theorem witness_StoppedMachineOnlyLatchesRaises : ({ State.reset with run := .halted } : State).run ≠ .running := by decide

theorem witness_IllegalOpcodeFaults :
    (prog [0xC0#8]).run = .running ∧ interruptCheck (prog [0xC0#8]) = none ∧ ∀ x, opcodeMap x ≠ (prog [0xC0#8]).byteAt (prog [0xC0#8]).pc := by
  refine ⟨by decide, by decide, fun x => ?_⟩
  cases x <;> decide

/-- For `IllegalRegisterOperandFaults` and every statement with `IllegalOperandsAreFaults`: A = 8, and A = 7 with B = 8. -/
theorem witness_IllegalRegisterOperandFaults :
    (∀ x : Mnemonic, x.format.hasRegA = true →
      (prog [opcodeMap x, 8#8, 0#8]).run = .running ∧ interruptCheck (prog [opcodeMap x, 8#8, 0#8]) = none ∧
      (prog [opcodeMap x, 8#8, 0#8]).byteAt 0#8 = opcodeMap x ∧ 7 < ((prog [opcodeMap x, 8#8, 0#8]).byteAt 1#8).toNat) ∧
    (∀ x : Mnemonic, x.format.hasRegB = true →
      (prog [opcodeMap x, 7#8, 8#8]).run = .running ∧ interruptCheck (prog [opcodeMap x, 7#8, 8#8]) = none ∧
      (prog [opcodeMap x, 7#8, 8#8]).byteAt 0#8 = opcodeMap x ∧ ((prog [opcodeMap x, 7#8, 8#8]).byteAt 1#8).toNat ≤ 7 ∧
      7 < ((prog [opcodeMap x, 7#8, 8#8]).byteAt 2#8).toNat) := by
  constructor <;> intro x <;> cases x <;> decide

/-- Also for `PcChangesInExactlyOneWay` after a fault. -/
theorem witness_FaultsArePrecise :
    after (step (prog [0x09#8])) = some ((prog [0x09#8]).setRun (.faulted (.stackUnderflow 0#8 (.instruction 0x09#8) 0xF4#8 1))) ∧
    after (exec .ret (prog [0x09#8])) = some ((prog [0x09#8]).setRun (.faulted (.stackUnderflow 0#8 (.instruction 0x09#8) 0xF4#8 1))) := by
  decide

theorem witness_HaltedOnlyByHlt :
    (prog [0x01#8]).run ≠ .halted ∧ see (prog [0x01#8]) (fun t => t.run) = some .halted := by decide

/-- A taken and an untaken jump, RET and IRET that complete. -/
theorem witness_PcChangesInExactlyOneWay :
    (after (exec (.jeq .r0) (State.reset.setFl 1#8))).map (fun t => t.run) = some .running ∧
    (after (exec (.jne .r0) (State.reset.setFl 1#8))).map (fun t => t.run) = some .running ∧
    (after (exec .ret (reg .r7 0xF3#8 State.reset))).map (fun t => t.run) = some .running ∧
    (after (exec .iret iretState)).map (fun t => t.run) = some .running ∧
    (after (exec (.push .r0) State.reset)).map (fun t => t.run) = some .running := by decide

/-- Each clause: CMP and IRET change fl, an entry saves it, ADD and JEQ run from a state with another fl. -/
theorem witness_FlagsWritersAndReaders :
    (after (exec (.cmp .r0 .r0) State.reset)).map (fun t => t.fl) = some 1#8 ∧
    (after (exec .iret (iretState.setFl 7#8))).map (fun t => (t.run, t.fl)) = some (.running, 0#8) ∧
    iretState.canPop 9 = true ∧
    entryState.mem.wf = true ∧ entryState.run = .running ∧
    (after (interruptEntry 0 entryState)).map (fun t => t.run) = some .running ∧
    (after (exec (.add .r0 .r0) State.reset)).isSome = true ∧
    (0xF9#8 : Byte).getLsbD 0 = (State.reset.setFl 0x01#8).fl.getLsbD 0 ∧
    (after (exec (.jeq .r0) (State.reset.setFl 0x01#8))).isSome = true ∧
    (after (exec (.jne .r0) (State.reset.setFl 0x01#8))).isSome = true := by decide

theorem witness_IeChangesOnlyByEntryAndIret :
    entryState.ie = true ∧ see entryState (fun t => t.ie) = some false ∧
    iretState.ie = false ∧ see iretState (fun t => t.ie) = some true ∧
    iretState.canPop 9 = true ∧ (reg .r7 0xEC#8 iretState).canPop 9 = false ∧
    (after (exec .iret (reg .r7 0xEC#8 iretState))).isSome = true ∧
    (after (exec .ret (reg .r7 0xF3#8 State.reset))).isSome = true := by decide

theorem witness_MemoryWritersAreStPushCallAndEntry :
    see (reg .r0 0x80#8 (prog [0x4D#8, 0#8])) (fun t => decide (t.mem ≠ (reg .r0 0x80#8 (prog [0x4D#8, 0#8])).mem)) = some true := by decide

theorem witness_OutputGrowsOnlyByPrnAndPraAndIsNeverRead :
    see (prog [0x42#8, 0#8]) (fun t => t.output) = some ((prog [0x42#8, 0#8]).output ++ [0]) := by decide

theorem witness_RegistersChangeOnlyAsTheTableSays :
    (after (exec (.pop .r0) (reg .r7 0xF3#8 State.reset))).isSome = true ∧ Reg.r1 ∉ writtenRegs (.pop .r0) ∧
    (after (interruptEntry 0 entryState)).isSome = true := by decide

/-- For `CmpSetsExactlyOneFlag`, `AddWritesTheWrappedSum`, `MulWritesTheWrappedProduct`, `LdiWritesTheImmediate` and
`StStoresAtTheRegistersAddress`: equal, greater and less, at the ends of the range; and a pc from which the advance does not wrap. -/
theorem witness_AluClauses :
    State.reset.reg .r0 = State.reset.reg .r1 ∧
    ((reg .r0 255#8 State.reset).reg .r1).toNat < ((reg .r0 255#8 State.reset).reg .r0).toNat ∧
    ((reg .r1 255#8 State.reset).reg .r0).toNat < ((reg .r1 255#8 State.reset).reg .r1).toNat ∧
    ({ State.reset with pc := 252#8 } : State).pc.toNat ≤ 252 := by decide

theorem witness_PushStoresBelowTheStackPointer :
    State.reset.mem.wf = true ∧ 1 ≤ (reg .r7 1#8 State.reset).sp.toNat ∧ (reg .r7 0xF5#8 State.reset).sp.toNat ≤ 0xF5 ∧
    (reg .r7 1#8 State.reset).sp.toNat ≤ 0xF5 ∧ 1 ≤ (reg .r7 0xF5#8 State.reset).sp.toNat := by decide

theorem witness_PopLoadsTheTopByte : (reg .r7 0xF3#8 State.reset).sp.toNat ≤ 0xF3 ∧ Reg.r0 ≠ Reg.sp := by decide

theorem witness_StackInstructionsFaultOutOfBounds :
    (reg .r7 0#8 State.reset).sp.toNat = 0 ∧ 0xF5 < (reg .r7 0xF6#8 State.reset).sp.toNat ∧
    0xF4 ≤ State.reset.sp.toNat ∧ 0xEB < (reg .r7 0xEC#8 State.reset).sp.toNat := by decide

theorem witness_StackOperationsKeepTheStackPointerInBounds :
    (after (exec (.push .r0) (reg .r7 0xF5#8 State.reset))).map (fun t => (t.run, t.sp)) = some (.running, 0xF4#8) ∧
    (after (exec (.pop .r0) (reg .r7 0xF3#8 State.reset))).map (fun t => (t.run, t.sp)) = some (.running, 0xF4#8) ∧
    (after (interruptEntry 0 entryState)).map (fun t => (t.run, t.sp)) = some (.running, 0x00#8) := by decide

/-- Two registers, SP among them, with exactly two bytes of room and with a full stack. -/
theorem witness_PushesThenPopsRestoreTheRegisters :
    State.reset.mem.wf = true ∧ [Reg.r7, .r0].length ≤ (reg .r7 2#8 State.reset).sp.toNat ∧
    (reg .r7 2#8 State.reset).sp.toNat ≤ 0xF4 ∧ [Reg.r7, .r0].length ≤ State.reset.sp.toNat ∧ State.reset.sp.toNat ≤ 0xF4 := by decide

theorem witness_StStoresAtTheRegistersAddress : entryState.mem.wf = true ∧ State.reset.mem.wf = true := by decide

theorem witness_JeqAndJneFollowTheEqualBit :
    (State.reset.setFl 0x01#8).fl.getLsbD 0 = true ∧ (State.reset.setFl 0xFE#8).fl.getLsbD 0 = false := by decide

theorem witness_CallPushesTheReturnAddress :
    State.reset.mem.wf = true ∧ 1 ≤ (reg .r7 1#8 State.reset).sp.toNat ∧ (reg .r7 0xF5#8 State.reset).sp.toNat ≤ 0xF5 := by decide

theorem witness_RetGoesToTheTopByte : (reg .r7 0xF3#8 State.reset).sp.toNat ≤ 0xF3 := by decide

theorem witness_CallThenRetReturnsPastTheCall :
    State.reset.mem.wf = true ∧ 1 ≤ (reg .r7 1#8 State.reset).sp.toNat ∧ (reg .r7 1#8 State.reset).sp.toNat ≤ 0xF4 ∧
    State.reset.sp.toNat ≤ 0xF4 := by decide

theorem witness_RaiseSetsExactlyOnePendingBit : ((reg .is 0x80#8 State.reset).reg .is).getLsbD (7 : Line).val = true := by decide

/-- Each clause: `ie` 0; nothing pending; the highest line alone; a raise of the highest line. -/
theorem witness_TheCheckServesTheLowestPendingEnabledLine :
    (State.reset.setIe false).run = .running ∧ (State.reset.setIe false).ie = false ∧
    (∀ i : Line, pendingEnabled State.reset i = false) ∧
    (let s := reg .is 0x80#8 (reg .im 0xFF#8 State.reset)
     s.run = .running ∧ s.ie = true ∧ pendingEnabled s 7 = true ∧ ∀ j : Line, j < 7 → pendingEnabled s j = false) ∧
    (let s := reg .im 0x80#8 State.reset
     s.ie = true ∧ (s.reg .im).getLsbD (7 : Line).val = true ∧ ∀ j : Line, j < 7 → pendingEnabled s j = false) := by decide

theorem witness_InterruptEntrySavesTheContext :
    entryState.mem.wf = true ∧ entryState.byteAt (0xF8#8 + BitVec.ofNat 8 (0 : Line).val) ≠ 0x00#8 ∧
    9 ≤ entryState.sp.toNat ∧ entryState.sp.toNat ≤ 0xF5 ∧ (reg .r7 0xF5#8 entryState).sp.toNat ≤ 0xF5 := by decide

theorem witness_InterruptEntryFaultsBeforeItBegins :
    State.reset.byteAt (0xF8#8 + BitVec.ofNat 8 (0 : Line).val) = 0x00#8 ∧
    (reg .r7 8#8 entryState).byteAt (0xF8#8 + BitVec.ofNat 8 (0 : Line).val) ≠ 0x00#8 ∧
    (reg .r7 8#8 entryState).sp.toNat < 9 ∧ 0xF5 < (reg .r7 0xF6#8 entryState).sp.toNat := by decide

/-- Also for `IretLosesLinesRaisedInTheHandler`. -/
theorem witness_IretRestoresTheContext : iretState.sp.toNat ≤ 0xEB := by decide

/-- The state the entry leaves is itself a handler's state that keeps SP and the frame. -/
theorem witness_IretUndoesTheEntry :
    (reg .r7 0xF4#8 entryState).sp.toNat ≤ 0xF4 ∧ 9 ≤ entryState.sp.toNat ∧ entryState.mem.wf = true ∧
    entryState.byteAt (0xF8#8 + BitVec.ofNat 8 (0 : Line).val) ≠ 0x00#8 ∧
    (after (interruptEntry 0 entryState)).map (fun t => t.sp) = some (entryState.sp - 9#8) := by decide

/-- IS and IM in the frame with line 7 alone pending and enabled. -/
theorem witness_TheNextPendingLineFollowsTheIret :
    let s := place 0xEB [0x80#8, 0xFF#8] (reg .r7 0xEB#8 State.reset)
    s.run = .running ∧ s.sp.toNat ≤ 0xEB ∧ (s.byteAt s.sp).getLsbD (7 : Line).val = true ∧
    (s.byteAt (s.sp + 1#8)).getLsbD (7 : Line).val = true ∧
    ∀ j : Line, j < 7 → ((s.byteAt s.sp).getLsbD j.val && (s.byteAt (s.sp + 1#8)).getLsbD j.val) = false := by decide

theorem witness_ResetLeavesTheBlockAsTheTableSays :
    Reg.r0 ≠ Reg.sp ∧ ({ State.reset with run := .halted } : State).run ≠ .running ∧
    ({ State.reset with run := .faulted (.invalidOpcode 0#8 0#8) } : State).run ≠ .running := by decide

/-- A program in the other map: LDI R1, 0xFF is 80 01 FF there, runs there, and is an illegal opcode under the default map. -/
theorem test_stepWith_other_map :
    (after (stepWith countedMap (prog [0x80#8, 1#8, 0xFF#8]))).map (fun t => (t.reg .r1, t.pc, t.run)) =
      some (0xFF#8, 3#8, .running) ∧
    see (prog [0x80#8, 1#8, 0xFF#8]) (fun t => t.run) = some (.faulted (.invalidOpcode 0#8 0x80#8)) := by decide

/-- A stack fault's record under another map names that map's opcode byte (RET is 0x01 there). -/
theorem test_stepWith_other_map_record :
    (after (stepWith countedMap (prog [0x01#8]))).map (fun t => t.run) =
      some (.faulted (.stackUnderflow 0#8 (.instruction 0x01#8) 0xF4#8 1)) := by decide

/-- Each clause under `countedMap` (legal by `witness_legalMap`): an encoding at pc, a byte outside the map, A = 8, A = 7 with
B = 8; a stopped state and one with a line to serve. -/
theorem witness_EveryOpcodeMapDrivesTheSameMachine :
    (let s := prog [0x80#8, 1#8, 0xFF#8]
     s.run = .running ∧ interruptCheck s = none ∧ encodeWith countedMap (.ldi .r1 0xFF#8) = (fetch s).bytes) ∧
    (let s := prog [0x03#8]
     s.run = .running ∧ interruptCheck s = none ∧ ∀ x ∈ Mnemonic.all, countedMap x ≠ s.byteAt s.pc) ∧
    (let s := prog [0x83#8, 8#8, 0#8]
     interruptCheck s = none ∧ countedMap .add = s.byteAt s.pc ∧ Mnemonic.add.format.hasRegA = true ∧
       7 < (s.byteAt (s.pc + 1#8)).toNat) ∧
    (let s := prog [0x83#8, 7#8, 8#8]
     interruptCheck s = none ∧ countedMap .add = s.byteAt s.pc ∧ Mnemonic.add.format.hasRegB = true ∧
       (s.byteAt (s.pc + 1#8)).toNat ≤ 7 ∧ 7 < (s.byteAt (s.pc + 2#8)).toNat) ∧
    ({ State.reset with run := .halted } : State).run ≠ .running ∧ (interruptCheck entryState).isSome = true := by decide

/-- A third legal map. -/
def nextMap : OpcodeMap := fun x => countedMap x + 1#8

/-- ST R0, R1 in two legal maps, and a PUSH with room. -/
theorem witness_RecodedInstructionsRunAlike :
    countedMap.Legal ∧ nextMap.Legal ∧
    (let s := prog [0x81#8, 0#8, 1#8]
     let t := prog [0x82#8, 0#8, 1#8]
     s.run = .running ∧ interruptCheck s = none ∧ encodeWith countedMap (.st .r0 .r1) = (fetch s).bytes ∧
       encodeWith nextMap (.st .r0 .r1) = (fetch t).bytes ∧ s.mem.wf = true ∧ t.mem.wf = true ∧
       ({ t with mem := s.mem } : State) = s) ∧
    State.reset.canPush 1 = true :=
  ⟨witness_legalMap, ⟨fun x y h => witness_legalMap.injective x y (by simpa [nextMap] using h), fun x => by cases x <;> decide⟩,
    by decide, by decide⟩

/-- A faulted state, with output and listed memory, that meets the invariant; its step answers a next state. Also for
`EveryRunKeepsTheInvariant`. -/
theorem witness_EveryStepKeepsTheInvariant :
    ∃ s t : State, s.Inv opcodeMap ∧ step s = .next t ∧ s.run ≠ .running ∧ s.output ≠ [] ∧ s.mem ≠ State.reset.mem := by
  refine ⟨{ prog [0xC0#8] with output := [0xFF], run := .faulted (.invalidOpcode 0#8 0xC0#8) }, _,
    ⟨by decide, by simp [OutputInRange], ?_⟩, rfl, by decide, by decide, by decide⟩
  intro f hf
  cases hf
  exact ⟨rfl, by decide, fun x => by cases x <;> decide⟩

end Sys2Proof.Tests
end

/-! The flags and the output as parts of the state that most instructions neither read nor write (10_state.md R16, R21).
Two runs from states that differ in such a part alone stay alike, and an instruction that keeps the difference writes
nothing there. -/

namespace Sys2Proof.Machine

/-! ### Operations beside an update they do not see

`f` replaces a part of the state that the operation does not look at; each hypothesis holds by `rfl` for such an `f`. -/

section Unseen
variable {f : State → State} {s t u : State} {src : FaultSource} {k : Nat}

theorem checkedPush_unseen (hsp : (f s).sp = s.sp) (hpc : (f s).pc = s.pc)
    (hrun : ∀ r, (f s).setRun r = f (s.setRun r)) (h : checkedPush src k s u = .next t) :
    checkedPush src k (f s) (f u) = .next (f t) := by
  have hcan : (f s).canPush k = s.canPush k := by simp [State.canPush, hsp]
  rcases checkedPush_cases s t h with ⟨hp, rfl⟩ | ⟨hp, rfl⟩ <;> simp [checkedPush, hcan, hp, hsp, hpc, hrun]

theorem checkedPop_unseen (hsp : (f s).sp = s.sp) (hpc : (f s).pc = s.pc)
    (hrun : ∀ r, (f s).setRun r = f (s.setRun r)) (h : checkedPop src k s u = .next t) :
    checkedPop src k (f s) (f u) = .next (f t) := by
  have hcan : (f s).canPop k = s.canPop k := by simp [State.canPop, hsp]
  rcases checkedPop_cases s t h with ⟨hp, rfl⟩ | ⟨hp, rfl⟩ <;> simp [checkedPop, hcan, hp, hsp, hpc, hrun]

/-- JEQ looks at bit 0 of `fl` and at its register only (44_control.md R94). -/
theorem exec_jeq_unseen {a : Reg} (hbit : (f s).fl.getLsbD 0 = s.fl.getLsbD 0)
    (hjump : (f s).jumpTo ((f s).reg a) = f (s.jumpTo (s.reg a))) (hadv : (f s).advance 2 = f (s.advance 2))
    (h : exec (.jeq a) s = .next t) : exec (.jeq a) (f s) = .next (f t) := by
  cases hb : s.fl.getLsbD 0 with
  | true =>
    rw [exec_jeq_taken a s hb] at h
    cases h
    rw [exec_jeq_taken a (f s) (hbit.trans hb), hjump]
  | false =>
    rw [exec_jeq_not_taken a s hb] at h
    cases h
    rw [exec_jeq_not_taken a (f s) (hbit.trans hb), hadv]

/-- JNE looks at bit 0 of `fl` and at its register only (44_control.md R95). -/
theorem exec_jne_unseen {a : Reg} (hbit : (f s).fl.getLsbD 0 = s.fl.getLsbD 0)
    (hjump : (f s).jumpTo ((f s).reg a) = f (s.jumpTo (s.reg a))) (hadv : (f s).advance 2 = f (s.advance 2))
    (h : exec (.jne a) s = .next t) : exec (.jne a) (f s) = .next (f t) := by
  cases hb : s.fl.getLsbD 0 with
  | true =>
    rw [exec_jne_not_taken a s hb] at h
    cases h
    rw [exec_jne_not_taken a (f s) (hbit.trans hb), hadv]
  | false =>
    rw [exec_jne_taken a s hb] at h
    cases h
    rw [exec_jne_taken a (f s) (hbit.trans hb), hjump]

end Unseen

/-! ### The flags -/

section Flags
variable {s t : State} {v : Byte}

/-- An instruction that does not touch `fl` runs alike from a state with other flags, and keeps them. -/
theorem exec_setFl {i : Instr} (hjeq : ∀ a, i ≠ .jeq a) (hjne : ∀ a, i ≠ .jne a) (hcmp : ∀ a b, i ≠ .cmp a b)
    (hiret : i ≠ .iret) (h : exec i s = .next t) : exec i (s.setFl v) = .next (t.setFl v) := by
  cases i with
  | hlt | pra | prn | jmp | ldi | st | add | mul => cases h; rfl
  | push | call => exact checkedPush_unseen (f := (State.setFl · v)) rfl rfl (fun _ => rfl) h
  | pop | ret => exact checkedPop_unseen (f := (State.setFl · v)) rfl rfl (fun _ => rfl) h
  | jeq a => exact absurd rfl (hjeq a)
  | jne a => exact absurd rfl (hjne a)
  | cmp a b => exact absurd rfl (hcmp a b)
  | iret => exact absurd rfl hiret

theorem exec_jeq_setFl {a : Reg} (hv : v.getLsbD 0 = s.fl.getLsbD 0) (h : exec (.jeq a) s = .next t) :
    exec (.jeq a) (s.setFl v) = .next (t.setFl v) :=
  exec_jeq_unseen (f := (State.setFl · v)) hv rfl rfl h

theorem exec_jne_setFl {a : Reg} (hv : v.getLsbD 0 = s.fl.getLsbD 0) (h : exec (.jne a) s = .next t) :
    exec (.jne a) (s.setFl v) = .next (t.setFl v) :=
  exec_jne_unseen (f := (State.setFl · v)) hv rfl rfl h

/-- An instruction that keeps whatever flags it is given keeps the ones it has. -/
theorem fl_eq_of_exec_setFl {i : Instr} (h : exec i s = .next t)
    (hkeep : ∀ v, v.getLsbD 0 = s.fl.getLsbD 0 → exec i (s.setFl v) = .next (t.setFl v)) : t.fl = s.fl := by
  have hsame : exec i s = .next (t.setFl s.fl) := hkeep s.fl rfl
  rw [h] at hsame
  injection hsame with ht
  rw [ht, State.setFl_fl]

/-- Only CMP and IRET write `fl`. -/
theorem exec_fl_eq {i : Instr} (hcmp : ∀ a b, i ≠ .cmp a b) (hiret : i ≠ .iret) (h : exec i s = .next t) :
    t.fl = s.fl := by
  refine fl_eq_of_exec_setFl h fun v hv => ?_
  by_cases hjeq : ∃ a, i = .jeq a
  · obtain ⟨a, rfl⟩ := hjeq
    exact exec_jeq_setFl hv h
  by_cases hjne : ∃ a, i = .jne a
  · obtain ⟨a, rfl⟩ := hjne
    exact exec_jne_setFl hv h
  exact exec_setFl (not_exists.1 hjeq) (not_exists.1 hjne) hcmp hiret h

theorem interruptEntry_fl {i : Line} (h : interruptEntry i s = .next t) : t.fl = s.fl := by
  rcases interruptEntry_cases s t h with ⟨_, rfl⟩ | ⟨_, _, rfl⟩ | ⟨_, _, rfl⟩
  · exact State.setRun_fl ..
  · exact enterHandler_fl ..
  · exact State.setRun_fl ..

/-- An entry that reaches the handler has pushed the flags second, so they lie two below the old SP
(60_exceptions.md R115). -/
theorem interruptEntry_pushes_fl {i : Line} (hw : s.mem.wf = true) (h : interruptEntry i s = .next t)
    (hrun : t.run = .running) : t.byteAt (s.sp - 2#8) = s.fl := by
  rcases interruptEntry_cases s t h with ⟨_, rfl⟩ | ⟨_, _, rfl⟩ | ⟨_, _, rfl⟩
  · cases hrun
  · exact enterHandler_frame s i _ hw 1 (by decide)
  · cases hrun

theorem exec_iret_of_canPop (h : s.canPop 9 = true) : exec .iret s = .next (interruptReturn s) := if_pos h

/-- An IRET that does not fault has restored `fl` from the frame (60_exceptions.md R118). -/
theorem exec_iret_fl (h : exec .iret s = .next t) (hrun : t.run = .running) : t.fl = s.byteAt (s.sp + 7#8) := by
  rcases checkedPop_cases s t h with ⟨_, rfl⟩ | ⟨_, rfl⟩
  · exact interruptReturn_fl s
  · cases hrun

theorem exec_cmp_setFl (a b : Reg) : exec (.cmp a b) (s.setFl v) = exec (.cmp a b) s := rfl

theorem exec_iret_setFl (h : s.canPop 9 = true) : exec .iret (s.setFl v) = exec .iret s := by
  rw [exec_iret_of_canPop h, exec_iret_of_canPop (s := s.setFl v) h, interruptReturn_setFl]

end Flags

/-- Settles O20: an instruction that runs alike from a state with other flags and keeps them has not written them, so the
writers follow from the readers. -/
theorem flagsWritersAndReaders : Obligations.FlagsWritersAndReaders := by
  refine ⟨fun i s t h hne => ?_, fun _ _ _ => interruptEntry_fl,
    fun _ _ _ hw _ => interruptEntry_pushes_fl hw, fun _ _ _ => exec_iret_fl,
    fun _ _ _ _ h hjeq hjne hcmp hiret => exec_setFl hjeq hjne hcmp hiret h,
    fun a b _ _ => exec_cmp_setFl a b, fun _ _ => exec_iret_setFl,
    fun _ _ _ _ hv => ⟨exec_jeq_setFl hv, exec_jne_setFl hv⟩⟩
  by_contra hother
  obtain ⟨hiret, hcmp⟩ := not_or.1 hother
  exact hne (exec_fl_eq (fun a b hab => hcmp ⟨a, b, hab⟩) hiret h)

/-! ### The output -/

section Output
variable {s t : State} {o : List CodePoint}

theorem interruptReturn_with_output (s : State) (o : List CodePoint) :
    interruptReturn { s with output := o } = { interruptReturn s with output := o } := by
  rw [interruptReturn_eq, interruptReturn_eq]
  rfl

theorem enterHandler_with_output (i : Line) (vector : Byte) (s : State) (o : List CodePoint) :
    enterHandler i vector { s with output := o } = { enterHandler i vector s with output := o } := by
  unfold enterHandler
  exact congrArg (State.jumpTo · vector) (State.pushAll_with_output ((s.setIe false).setReg .is _) (interruptFrame _) o)

theorem interruptEntry_with_output {i : Line} (h : interruptEntry i s = .next t) :
    interruptEntry i { s with output := o } = .next { t with output := o } := by
  unfold interruptEntry at h ⊢
  dsimp only at h ⊢
  split at h
  · next hv =>
    cases h
    exact if_pos hv
  · next hv =>
    refine (if_neg hv).trans ?_
    have hpush := checkedPush_unseen (f := fun u => { u with output := o }) rfl rfl (fun _ => rfl) h
    rwa [← enterHandler_with_output] at hpush

/-- An instruction that prints nothing runs alike from a state with another output, and keeps it. -/
theorem exec_with_output {i : Instr} (hprn : ∀ a, i ≠ .prn a) (hpra : ∀ a, i ≠ .pra a) (h : exec i s = .next t) :
    exec i { s with output := o } = .next { t with output := o } := by
  cases i with
  | hlt | jmp | ldi | st | cmp | add | mul => cases h; rfl
  | push | call => exact checkedPush_unseen (f := fun u => { u with output := o }) rfl rfl (fun _ => rfl) h
  | pop | ret => exact checkedPop_unseen (f := fun u => { u with output := o }) rfl rfl (fun _ => rfl) h
  | iret =>
    have hpop := checkedPop_unseen (f := fun u => { u with output := o }) rfl rfl (fun _ => rfl) h
    rwa [← interruptReturn_with_output] at hpop
  | jeq => exact exec_jeq_unseen (f := fun u => { u with output := o }) rfl rfl rfl h
  | jne => exact exec_jne_unseen (f := fun u => { u with output := o }) rfl rfl rfl h
  | prn a => exact absurd rfl (hprn a)
  | pra a => exact absurd rfl (hpra a)

/-- From `s` to `t` a meaning adds `added` to the output, and from any other output it does the same and adds the same
(10_state.md R21). -/
def AddsToOutput (meaning : State → Result) (s t : State) (added : List CodePoint) : Prop :=
  t.output = s.output ++ added ∧
  ∀ other, meaning { s with output := other } = .next { t with output := other ++ added }

/-- A meaning that keeps whatever output it is given adds nothing. -/
theorem addsToOutput_nil {meaning : State → Result} (h : meaning s = .next t)
    (hkeep : ∀ o, meaning { s with output := o } = .next { t with output := o }) : AddsToOutput meaning s t [] := by
  have hsame : meaning s = .next { t with output := s.output } := hkeep s.output
  rw [h] at hsame
  injection hsame with ht
  exact ⟨by rw [ht, List.append_nil], by simpa using hkeep⟩

theorem exec_prn_addsToOutput {a : Reg} (h : exec (.prn a) s = .next t) :
    AddsToOutput (exec (.prn a)) s t (prnCodePoints (s.reg a)) := by
  cases h
  exact ⟨rfl, fun _ => rfl⟩

theorem exec_pra_addsToOutput {a : Reg} (h : exec (.pra a) s = .next t) :
    AddsToOutput (exec (.pra a)) s t [(s.reg a).toNat] := by
  cases h
  exact ⟨rfl, fun _ => rfl⟩

/-- Every instruction adds something to any output, and only PRN and PRA more than nothing. -/
theorem exec_addsToOutput {i : Instr} (h : exec i s = .next t) :
    ∃ added, AddsToOutput (exec i) s t added ∧ (added ≠ [] → ∃ a, i = .prn a ∨ i = .pra a) := by
  by_cases hprn : ∃ a, i = .prn a
  · obtain ⟨a, rfl⟩ := hprn
    exact ⟨_, exec_prn_addsToOutput h, fun _ => ⟨a, .inl rfl⟩⟩
  by_cases hpra : ∃ a, i = .pra a
  · obtain ⟨a, rfl⟩ := hpra
    exact ⟨_, exec_pra_addsToOutput h, fun _ => ⟨a, .inr rfl⟩⟩
  have hkeep := fun o => exec_with_output (o := o) (not_exists.1 hprn) (not_exists.1 hpra) h
  exact ⟨[], addsToOutput_nil h hkeep, fun hne => absurd rfl hne⟩

/-- A running machine with a line to serve enters the interrupt. -/
theorem step_entry {i : Line} (hr : s.run = .running) (hc : interruptCheck s = some i) :
    step s = interruptEntry i s := by
  rw [step_running s hr, hc]

/-- A cycle that runs no instruction keeps whatever output it is given. -/
theorem step_with_output (h : step s = .next t)
    (hno : ¬ (s.run = .running ∧ interruptCheck s = none ∧ ∃ i, decode (fetch s) = .ok i)) :
    step { s with output := o } = .next { t with output := o } := by
  rcases step_cases h with ⟨hr, rfl⟩ | ⟨hr, i, hc, hi⟩ | ⟨hr, hc, e, he, rfl⟩ | ⟨hr, hc, i, hd, _⟩
  · exact step_stopped _ hr
  · rw [step_entry (s := { s with output := o }) hr hc]
    exact interruptEntry_with_output hi
  · exact step_error (s := { s with output := o }) hr hc he
  · exact absurd ⟨hr, hc, i, hd⟩ hno

/-- A cycle that runs an instruction adds what the instruction adds. -/
theorem AddsToOutput.step_of_exec {i : Instr} {added : List CodePoint} (hr : s.run = .running)
    (hc : interruptCheck s = none) (hd : decode (fetch s) = .ok i) (h : AddsToOutput (exec i) s t added) :
    AddsToOutput step s t added := by
  obtain ⟨hout, hother⟩ := h
  exact ⟨hout, fun other => (step_ok (s := { s with output := other }) hr hc hd).trans (hother other)⟩

end Output

/-- Settles O23: a cycle that runs no instruction adds nothing to any output, and one that runs an instruction adds what the
instruction does. -/
theorem outputGrowsOnlyByPrnAndPraAndIsNeverRead : Obligations.OutputGrowsOnlyByPrnAndPraAndIsNeverRead := by
  intro s t h
  by_cases hruns : s.run = .running ∧ interruptCheck s = none ∧ ∃ i, decode (fetch s) = .ok i
  · obtain ⟨hr, hc, i, hd⟩ := hruns
    obtain ⟨added, hadds, hprints⟩ := exec_addsToOutput ((step_ok hr hc hd).symm.trans h)
    obtain ⟨hout, hother⟩ := hadds.step_of_exec hr hc hd
    refine ⟨added, hout, fun hne => ⟨hc, ?_⟩, hother⟩
    obtain ⟨a, rfl | rfl⟩ := hprints hne
    · exact ⟨a, .inl hd⟩
    · exact ⟨a, .inr hd⟩
  · obtain ⟨hout, hother⟩ := addsToOutput_nil h fun _ => step_with_output h hruns
    exact ⟨[], hout, fun hne => absurd rfl hne, hother⟩

end Sys2Proof.Machine

/-! A sequence of writes to memory (20_memory.md R31). -/

namespace Sys2Proof.Machine

theorem Memory.wf_foldl_write (m : Memory) (writes : List (Byte × Byte)) (h : m.wf = true) :
    (writes.foldl (fun n w => n.write w.1 w.2) m).wf = true := by
  induction writes generalizing m with
  | nil => exact h
  | cons w _ ih => exact ih _ (m.wf_write w.1 w.2 h)

/-- Induction from the end of the list: the last write decides its own cell and leaves every other to the writes before. -/
theorem Memory.read_foldl_write (m : Memory) (writes : List (Byte × Byte)) (a : Byte) (h : m.wf = true) :
    (writes.foldl (fun n w => n.write w.1 w.2) m).read a =
      (writes.reverse.find? (fun w => decide (w.1 = a))).elim (m.read a) Prod.snd := by
  induction writes using List.reverseRecOn with
  | nil => rfl
  | append_singleton earlier last ih =>
    rw [List.foldl_concat, Memory.read_write _ _ _ _ (m.wf_foldl_write earlier h), List.reverse_concat]
    by_cases ha : last.1 = a
    · rw [if_pos ha.symm, List.find?_cons_of_pos (by simpa using ha), Option.elim_some]
    · rw [if_neg (Ne.symm ha), List.find?_cons_of_neg (by simpa using ha), ih]

/-- Settles O9: the last write to the cell is the first one found in the reversed list of writes. -/
theorem readReturnsTheMostRecentWrite : Obligations.ReadReturnsTheMostRecentWrite := by
  refine fun m writes h => ⟨m.wf_foldl_write writes h, fun a => ?_⟩
  rw [m.read_foldl_write writes a h]
  cases writes.reverse.find? (fun w => decide (w.1 = a)) with
  | none => rfl
  | some w => rfl

end Sys2Proof.Machine

/-! The encoding's length (30_encoding.md R46) and the decoder's order: opcode, operand A, operand B (R52). -/

namespace Sys2Proof

theorem Instr.length_operandBytes (i : Instr) : i.operandBytes.length = i.mnemonic.format.operandCount := by
  cases i <;> rfl

theorem encodeWith_length (m : OpcodeMap) (i : Instr) :
    (encodeWith m i).length = i.mnemonic.format.operandCount + 1 :=
  congrArg (· + 1) i.length_operandBytes

theorem Format.operandCount_le_two (fmt : Format) : fmt.operandCount ≤ 2 := by cases fmt <;> decide

theorem Mnemonic.operandCount_eq_two_iff (x : Mnemonic) :
    x.format.operandCount = 2 ↔ x ∈ [Mnemonic.ldi, .st, .add, .mul, .cmp] := by
  cases x <;> decide

/-- Settles O3: constraint (ii) of a legal map is the operand count of the format, which is the number of bytes encoded. -/
theorem lengthIsTopTwoBitsPlusOne : Obligations.LengthIsTopTwoBitsPlusOne := by
  intro m hm i
  rw [encodeWith_length, hm.count]
  have hle := i.mnemonic.format.operandCount_le_two
  exact ⟨rfl, rfl, by omega, (by omega : _ ↔ _ = 2).trans i.mnemonic.operandCount_eq_two_iff⟩

theorem decodeWith_unlisted {m : OpcodeMap} {f : Fetched} (h : ∀ x, m x ≠ f.op) :
    decodeWith m f = .error (.invalidOpcode f.op) := by
  simp [decodeWith, (m.lookup_eq_none f.op).2 h]

theorem decodeWith_of_opcode {m : OpcodeMap} (hm : m.Legal) {f : Fetched} {x : Mnemonic} (hx : m x = f.op) :
    decodeWith m f = decodeOperands x f := by
  simp [decodeWith, ← hx, OpcodeMap.lookup_apply hm]

section Operands
variable {x : Mnemonic} {f : Fetched}

theorem decodeOperands_error_a (hx : x.format.hasRegA = true) (ha : 7 < f.a.toNat) :
    decodeOperands x f = .error (.invalidRegisterIndex f.op .a f.a) := by
  cases x with
  | hlt | ret | iret => cases hx
  | pra | prn | call | pop | push | jmp | jeq | jne | ldi => exact decodeRegA_error _ ha
  | st | cmp | add | mul => exact decodeRegAB_error_a _ ha

theorem decodeOperands_error_b (hx : x.format.hasRegB = true) (ha : f.a.toNat ≤ 7) (hb : 7 < f.b.toNat) :
    decodeOperands x f = .error (.invalidRegisterIndex f.op .b f.b) := by
  obtain ⟨r, hr⟩ := Reg.exists_of_le f.a ha
  cases x with
  | st | cmp | add | mul => exact decodeRegAB_error_b _ hr hb
  | _ => cases hx

/-- Every rejection names a register operand above 7, so without one the operands decode. -/
theorem decodeOperands_accepts (hA : x.format.hasRegA = true → f.a.toNat ≤ 7)
    (hB : x.format.hasRegB = true → f.b.toNat ≤ 7) : ∃ i, decodeOperands x f = .ok i := by
  cases h : decodeOperands x f with
  | ok i => exact ⟨i, rfl⟩
  | error e =>
    obtain ⟨hx, ha, -⟩ | ⟨hx, hb, -⟩ := decodeOperands_eq_error h
    · exact absurd (hA hx) (by omega)
    · exact absurd (hB hx) (by omega)

/-- A decoded instruction keeps the operand bytes its format counts, as they were fetched. -/
theorem decodeOperands_operandBytes {i : Instr} (h : decodeOperands x f = .ok i) :
    i.operandBytes = [f.a, f.b].take x.format.operandCount := by
  cases x with
  | hlt | ret | iret => cases h; rfl
  | pra | prn | call | pop | push | jmp | jeq | jne | ldi =>
    obtain ⟨r, ha, rfl⟩ := decodeRegA_eq_ok h
    rw [ha]; rfl
  | st | cmp | add | mul =>
    obtain ⟨a, b, ha, hb, rfl⟩ := decodeRegAB_eq_ok h
    rw [ha, hb]; rfl

end Operands

/-- Settles O6: a legal map's lookup leaves the operands of one mnemonic, whose faults come A before B. -/
theorem decoderIsTotalAndOrdered : Obligations.DecoderIsTotalAndOrdered := by
  intro m hm f
  refine ⟨decodeWith_unlisted, fun x hx hreg ha => ?_, fun x hx hreg ha hb => ?_, fun x hx hA hB => ?_⟩
  · rw [decodeWith_of_opcode hm hx, decodeOperands_error_a hreg ha]
  · rw [decodeWith_of_opcode hm hx, decodeOperands_error_b hreg ha hb]
  · obtain ⟨i, hi⟩ := decodeOperands_accepts hA hB
    refine ⟨i, (decodeWith_of_opcode hm hx).trans hi, decodeOperands_mnemonic hi, ?_⟩
    rw [decodeOperands_operandBytes hi, ← hx, hm.count]

end Sys2Proof

/-! The default map's lookup, a register operand above 7 (40_cycle_decode.md R65), and the value of a narrowed result. -/

namespace Sys2Proof

@[simp] theorem opcodeMap_lookup (x : Mnemonic) : opcodeMap.lookup (opcodeMap x) = some x := by
  cases x <;> rfl

/-- The lookup reads the mnemonic back, so no two mnemonics share a byte. -/
theorem opcodeMap_legal : opcodeMap.Legal where
  injective x y h := Option.some.inj (by rw [← opcodeMap_lookup x, h, opcodeMap_lookup])
  count x := by cases x <;> rfl

theorem Format.hasRegA_of_hasRegB {fmt : Format} (h : fmt.hasRegB = true) : fmt.hasRegA = true := by
  cases fmt with
  | rr => rfl
  | z | r | ri => cases h

/-- Whichever operand is illegal, one is named; it is A where both are. -/
theorem decodeOperands_error {x : Mnemonic} {f : Fetched}
    (h : (x.format.hasRegA = true ∧ 7 < f.a.toNat) ∨ (x.format.hasRegB = true ∧ 7 < f.b.toNat)) :
    ∃ which value, decodeOperands x f = .error (.invalidRegisterIndex f.op which value) := by
  obtain ⟨hA, ha⟩ | ⟨hB, hb⟩ := h
  · exact ⟨_, _, decodeOperands_error_a hA ha⟩
  · by_cases ha : f.a.toNat ≤ 7
    · exact ⟨_, _, decodeOperands_error_b hB ha hb⟩
    · exact ⟨_, _, decodeOperands_error_a (Format.hasRegA_of_hasRegB hB) (Nat.lt_of_not_le ha)⟩

/-- The narrowing of every arithmetic result (41_alu.md R75). -/
@[simp] theorem wrap_toNat (n : Nat) : (wrap n).toNat = n % 256 := BitVec.toNat_ofNat ..

end Sys2Proof

/-! The instructions that write one register and advance by 3 (41_alu.md R76, R77). -/

namespace Sys2Proof.Machine

/-- The legal map's lookup leaves the operands of `x`, and the cycle takes the decoder's verdict as its fault. -/
theorem illegalOperandsAreFaults (x : Mnemonic) : IllegalOperandsAreFaults x := by
  intro s hr hc hop hbad
  obtain ⟨which, value, he⟩ := decodeOperands_error hbad
  have hd : decode (fetch s) = _ := (decodeWith_of_opcode opcodeMap_legal hop.symm).trans he
  exact ⟨_, s.pc, _, which, value, step_error hr hc hd, rfl⟩

theorem sameRegsBut_setReg (s : State) (a : Reg) (v : Byte) : SameRegsBut s (s.setReg a v) [a] :=
  fun r hr => s.setReg_reg_other a r v (List.ne_of_not_mem_cons hr)

theorem State.advance_pc_toNat (s : State) (n : Nat) (h : s.pc.toNat + n < 256) :
    (s.advance n).pc.toNat = s.pc.toNat + n := by
  rw [State.advance_pc, BitVec.toNat_add, BitVec.toNat_ofNat]
  omega

/-- What a write of one register followed by the advance of a three-byte instruction leaves alone. -/
theorem setReg_advance_frame {s t : State} {a : Reg} {v : Byte} (ht : t = (s.setReg a v).advance 3) :
    SameRegsBut s t [a] ∧ (s.pc.toNat ≤ 252 → t.pc.toNat = s.pc.toNat + 3) ∧
    t.fl = s.fl ∧ t.ie = s.ie ∧ t.run = s.run ∧ t.output = s.output ∧ SameBytesBut s t [] := by
  subst ht
  refine ⟨sameRegsBut_setReg s a v, fun hpc => ?_, rfl, rfl, rfl, rfl, fun _ _ => rfl⟩
  exact (s.setReg a v).advance_pc_toNat 3 (show s.pc.toNat + 3 < 256 by omega)

theorem setReg_advance_reg (s : State) (a : Reg) (v : Byte) (n : Nat) : ((s.setReg a v).advance n).reg a = v := by
  simp

/-- Settles O25: ADD is one register write and the advance, and the written sum is narrowed by `wrap`. -/
theorem addWritesTheWrappedSum : Obligations.AddWritesTheWrappedSum := by
  refine ⟨fun a b s => ⟨_, rfl, ?_, setReg_advance_frame rfl⟩, illegalOperandsAreFaults .add⟩
  rw [setReg_advance_reg]
  exact wrap_toNat _

/-- Settles O26: MUL is one register write and the advance, and the written product is narrowed by `wrap`. -/
theorem mulWritesTheWrappedProduct : Obligations.MulWritesTheWrappedProduct := by
  refine ⟨fun a b s => ⟨_, rfl, ?_, setReg_advance_frame rfl⟩, illegalOperandsAreFaults .mul⟩
  rw [setReg_advance_reg]
  exact wrap_toNat _

end Sys2Proof.Machine

/-! Data movement: the instructions that write a register or a memory byte and advance by 3 (43_data_io.md R87, R88). -/

namespace Sys2Proof.Machine

/-- Settles O33: LDI is one register write and the advance, and the immediate is written as it was fetched. -/
theorem ldiWritesTheImmediate : Obligations.LdiWritesTheImmediate :=
  ⟨fun a imm s => ⟨_, rfl, setReg_advance_reg s a imm 3, setReg_advance_frame rfl⟩, illegalOperandsAreFaults .ldi⟩

theorem State.storeByte_byteAt_same (s : State) (c v : Byte) (h : s.mem.wf = true) : (s.storeByte c v).byteAt c = v :=
  (s.storeByte_byteAt c v c h).trans (if_pos rfl)

theorem sameBytesBut_storeByte (s : State) (c v : Byte) (h : s.mem.wf = true) : SameBytesBut s (s.storeByte c v) [c] :=
  fun q hq => (s.storeByte_byteAt c v q h).trans (if_neg (List.ne_of_not_mem_cons hq))

/-- What a write of one byte followed by the advance of a three-byte instruction leaves alone. -/
theorem storeByte_advance_frame {s t : State} {c v : Byte} (h : s.mem.wf = true) (ht : t = (s.storeByte c v).advance 3) :
    SameBytesBut s t [c] ∧ SameRegsBut s t [] ∧ (s.pc.toNat ≤ 252 → t.pc.toNat = s.pc.toNat + 3) ∧
    t.fl = s.fl ∧ t.ie = s.ie ∧ t.run = s.run ∧ t.output = s.output := by
  subst ht
  refine ⟨sameBytesBut_storeByte s c v h, fun _ _ => rfl, fun hpc => ?_, rfl, rfl, rfl, rfl⟩
  exact (s.storeByte c v).advance_pc_toNat 3 (show s.pc.toNat + 3 < 256 by omega)

/-- Settles O34: ST is one byte written at the address register A holds, and the advance. -/
theorem stStoresAtTheRegistersAddress : Obligations.StStoresAtTheRegistersAddress := by
  refine ⟨fun a b s hw => ⟨_, rfl, ?_, rfl, ?_⟩, illegalOperandsAreFaults .st⟩
  · exact s.storeByte_byteAt_same (storeAddress s a) (s.reg b) hw
  · exact storeByte_advance_frame hw rfl

end Sys2Proof.Machine

/-! Control transfer: the jump (44_control.md R93). -/

namespace Sys2Proof.Machine

/-- JMP has one outcome for every flag value: the jump to what its register holds. -/
theorem exec_jmp (a : Reg) (s : State) : exec (.jmp a) s = .next (s.jumpTo (s.reg a)) := rfl

/-- What a jump leaves alone: everything but pc. -/
theorem jumpTo_frame {s t : State} {target : Byte} (ht : t = s.jumpTo target) :
    SameRegsBut s t [] ∧ t.fl = s.fl ∧ t.ie = s.ie ∧ t.run = s.run ∧ t.output = s.output ∧ SameBytesBut s t [] := by
  subst ht
  exact ⟨fun r _ => s.jumpTo_reg target r, s.jumpTo_fl target, s.jumpTo_ie target, s.jumpTo_run target,
    s.jumpTo_output target, fun c _ => s.jumpTo_byteAt target c⟩

/-- Settles O37: JMP is the jump to its register's value, which no flag decides, and a jump changes pc alone. -/
theorem jmpGoesToTheRegister : Obligations.JmpGoesToTheRegister :=
  ⟨fun a s => ⟨_, exec_jmp a s, s.jumpTo_pc (s.reg a), jumpTo_frame rfl⟩, illegalOperandsAreFaults .jmp⟩

end Sys2Proof.Machine

/-! The check at the start of a cycle, said of the lines that are pending and enabled (60_exceptions.md R113). -/

namespace Sys2Proof.Machine

section Check
variable {s : State} {i j : Line}

/-- The check reads the mask IS & IM, whose bit `i` says that line `i` is pending and enabled. -/
theorem getLsbD_is_and_im (s : State) (i : Line) : (s.reg .is &&& s.reg .im).getLsbD i.val = pendingEnabled s i :=
  BitVec.getLsbD_and

theorem interruptCheck_eq_some_iff_lowest :
    interruptCheck s = some i ↔
      s.ie = true ∧ pendingEnabled s i = true ∧ ∀ j : Line, j < i → pendingEnabled s j = false := by
  simp only [interruptCheck_eq_some, getLsbD_is_and_im]

theorem interruptCheck_eq_none_of_no_pendingEnabled (h : ∀ i : Line, pendingEnabled s i = false) :
    interruptCheck s = none := by
  refine Option.eq_none_iff_forall_ne_some.2 fun i hi => ?_
  obtain ⟨_, hserved, _⟩ := interruptCheck_eq_some_iff_lowest.1 hi
  exact Bool.false_ne_true ((h i).symm.trans hserved)

theorem raiseInterrupt_is_getLsbD (i j : Line) (s : State) :
    ((raiseInterrupt i s).reg .is).getLsbD j.val = (decide (j = i) || (s.reg .is).getLsbD j.val) := by
  rw [raiseInterrupt, State.setReg_reg_same, BitVec.getLsbD_or, lineBit_getLsbD, Bool.or_comm]

theorem raiseInterrupt_im (i : Line) (s : State) : (raiseInterrupt i s).reg .im = s.reg .im :=
  s.setReg_reg_other .is .im _ (by decide)

/-- A raised line is pending, so whether it can be served is the mask's choice alone. -/
theorem pendingEnabled_raiseInterrupt_same (i : Line) (s : State) :
    pendingEnabled (raiseInterrupt i s) i = (s.reg .im).getLsbD i.val := by
  rw [pendingEnabled, raiseInterrupt_is_getLsbD, raiseInterrupt_im, decide_eq_true rfl, Bool.true_or, Bool.true_and]

theorem pendingEnabled_raiseInterrupt_other (s : State) (h : j ≠ i) :
    pendingEnabled (raiseInterrupt i s) j = pendingEnabled s j := by
  rw [pendingEnabled, raiseInterrupt_is_getLsbD, raiseInterrupt_im, decide_eq_false h, Bool.false_or, pendingEnabled]

/-- The latency of R113: a line raised between two cycles is the one the next check finds. -/
theorem interruptCheck_raiseInterrupt (hie : s.ie = true) (hen : (s.reg .im).getLsbD i.val = true)
    (hlow : ∀ j : Line, j < i → pendingEnabled s j = false) : interruptCheck (raiseInterrupt i s) = some i := by
  refine interruptCheck_eq_some_iff_lowest.2 ⟨hie, ?_, fun j hj => ?_⟩
  · exact (pendingEnabled_raiseInterrupt_same i s).trans hen
  · exact (pendingEnabled_raiseInterrupt_other s (ne_of_lt hj)).trans (hlow j hj)

/-- A running machine with no interrupt to serve fetches and executes. -/
theorem step_eq_fetchExecute (hr : s.run = .running) (hc : interruptCheck s = none) : step s = fetchExecute s := by
  rw [step_running s hr, hc]

end Check

/-- Settles O44: what the check finds decides the cycle, and it finds the least line pending and enabled, a fresh raise
among them. -/
theorem theCheckServesTheLowestPendingEnabledLine : Obligations.TheCheckServesTheLowestPendingEnabledLine := by
  intro s hr
  refine ⟨fun hie => ?_, fun hnone => ?_, fun i hie hi hlow => ?_, fun i hie hen hlow => ?_⟩
  · exact step_eq_fetchExecute hr (interruptCheck_disabled s hie)
  · exact step_eq_fetchExecute hr (interruptCheck_eq_none_of_no_pendingEnabled hnone)
  · exact step_entry hr (interruptCheck_eq_some_iff_lowest.2 ⟨hie, hi, hlow⟩)
  · exact step_entry hr (interruptCheck_raiseInterrupt hie hen hlow)

end Sys2Proof.Machine

/-! The encoding read back (30_encoding.md R47, R51), and the two ways a triple fails to decode (R50, R52). -/

namespace Sys2Proof

/-- The operand half of the round trip, for every instruction. -/
theorem decodeOperands_encoding (i : Instr) : Laws.OperandsRoundTrip.Statement i := by
  cases i with
  | hlt => exact Laws.OperandsRoundTrip.hlt
  | ret => exact Laws.OperandsRoundTrip.ret
  | iret => exact Laws.OperandsRoundTrip.iret
  | pra a => exact Laws.OperandsRoundTrip.pra a
  | prn a => exact Laws.OperandsRoundTrip.prn a
  | call a => exact Laws.OperandsRoundTrip.call a
  | pop a => exact Laws.OperandsRoundTrip.pop a
  | push a => exact Laws.OperandsRoundTrip.push a
  | jmp a => exact Laws.OperandsRoundTrip.jmp a
  | jeq a => exact Laws.OperandsRoundTrip.jeq a
  | jne a => exact Laws.OperandsRoundTrip.jne a
  | ldi a imm => exact Laws.OperandsRoundTrip.ldi a imm
  | st a b => exact Laws.OperandsRoundTrip.st a b
  | cmp a b => exact Laws.OperandsRoundTrip.cmp a b
  | add a b => exact Laws.OperandsRoundTrip.add a b
  | mul a b => exact Laws.OperandsRoundTrip.mul a b

@[simp] theorem Fetched.ofBytes_op (op : Byte) : ∀ operands, (Fetched.ofBytes (op :: operands)).op = op
  | [] | [_] | _ :: _ :: _ => rfl

theorem Fetched.ofBytes_bytes (f : Fetched) : Fetched.ofBytes f.bytes = f := rfl

/-- Settles O4: a legal map's lookup reads the mnemonic back from the opcode byte, and the operands decode by their own
round trip. -/
theorem decodeOfEncodeIsTheInstruction : Obligations.DecodeOfEncodeIsTheInstruction := by
  intro m hm i rest
  have hop : m i.mnemonic = (Fetched.ofBytes (encodeWith m i ++ rest)).op := (Fetched.ofBytes_op _ _).symm
  rw [decodeWith_of_opcode hm hop]
  exact decodeOperands_encoding i (m i.mnemonic) rest

/-- Three bytes that begin with an encoding decode to its instruction. -/
theorem decodeWith_of_encoding {m : OpcodeMap} (hm : m.Legal) {f : Fetched} {i : Instr} (h : encodeWith m i <+: f.bytes) :
    decodeWith m f = .ok i := by
  obtain ⟨rest, hrest⟩ := h
  rw [← f.ofBytes_bytes, ← hrest]
  exact decodeOfEncodeIsTheInstruction m hm i rest

theorem decodeWith_of_lookup {m : OpcodeMap} {f : Fetched} {x : Mnemonic} (hx : m.lookup f.op = some x) :
    decodeWith m f = decodeOperands x f := by
  simp [decodeWith, hx]

section Accepted
variable {m : OpcodeMap} {f : Fetched} {i : Instr}

/-- What decodes has a looked-up mnemonic, and its operands decode for that mnemonic. -/
theorem decodeWith_eq_ok (h : decodeWith m f = .ok i) :
    m.lookup f.op = some i.mnemonic ∧ decodeOperands i.mnemonic f = .ok i := by
  cases hx : m.lookup f.op with
  | none =>
    rw [decodeWith_unlisted ((m.lookup_eq_none f.op).1 hx)] at h
    cases h
  | some x =>
    rw [decodeWith_of_lookup hx] at h
    obtain rfl := decodeOperands_mnemonic h
    exact ⟨rfl, h⟩

/-- The two ways a triple is rejected: its byte is no opcode, or an operand of its mnemonic is no register. -/
theorem decodeWith_eq_error {e : DecodeError} (h : decodeWith m f = .error e) :
    ((∀ x, m x ≠ f.op) ∧ e = .invalidOpcode f.op) ∨
    (7 < f.a.toNat ∧ e = .invalidRegisterIndex f.op .a f.a) ∨
    (7 < f.b.toNat ∧ e = .invalidRegisterIndex f.op .b f.b) := by
  cases hx : m.lookup f.op with
  | none =>
    have hno := (m.lookup_eq_none f.op).1 hx
    rw [decodeWith_unlisted hno] at h
    cases h
    exact .inl ⟨hno, rfl⟩
  | some x =>
    rw [decodeWith_of_lookup hx] at h
    obtain ⟨-, ha⟩ | ⟨-, hb⟩ := decodeOperands_eq_error h
    · exact .inr (.inl ha)
    · exact .inr (.inr hb)

end Accepted

/-- Settles O5: the opcode byte is the map's own for the decoded mnemonic, and the operand bytes are kept as fetched. -/
theorem decodedBytesBeginWithTheEncoding : Obligations.DecodedBytesBeginWithTheEncoding := by
  intro m f i h
  have hoperands := decodeOperands_operandBytes (decodeWith_eq_ok h).2
  rw [encodeWith, decodeWith_opcode h, hoperands]
  exact ⟨[f.a, f.b].drop _, congrArg (f.op :: ·) (List.take_append_drop _ _)⟩

/-- The decoder reads no operand byte that the format does not count (40_cycle_decode.md R63). -/
theorem decodeOperands_congr {x : Mnemonic} {f g : Fetched} (hop : f.op = g.op)
    (hused : [f.a, f.b].take x.format.operandCount = [g.a, g.b].take x.format.operandCount) :
    decodeOperands x f = decodeOperands x g := by
  cases x with
  | hlt | ret | iret => rfl
  | pra | prn | call | pop | push | jmp | jeq | jne =>
    have ha : f.a = g.a := List.head_eq_of_cons_eq hused
    simp only [decodeOperands, decodeRegA, hop, ha]
  | ldi | st | cmp | add | mul =>
    have ha : f.a = g.a := List.head_eq_of_cons_eq hused
    have hb : f.b = g.b := List.head_eq_of_cons_eq (List.tail_eq_of_cons_eq hused)
    simp only [decodeOperands, decodeRegA, decodeRegAB, hop, ha, hb]

/-- A triple with the same opcode and the same used operand bytes decodes alike. -/
theorem decodeWith_ok_congr {m : OpcodeMap} {f g : Fetched} {i : Instr} (hop : g.op = f.op)
    (hused : [g.a, g.b].take i.operandBytes.length = [f.a, f.b].take i.operandBytes.length)
    (h : decodeWith m f = .ok i) : decodeWith m g = .ok i := by
  obtain ⟨hx, hoperands⟩ := decodeWith_eq_ok h
  rw [i.length_operandBytes] at hused
  rw [decodeWith_of_lookup (hop ▸ hx), decodeOperands_congr hop hused, hoperands]

/-- Settles O8: changed bytes past the operands leave the opcode and the counted operand bytes as they were. -/
theorem bytesPastTheOperandsAreIgnored : Obligations.BytesPastTheOperandsAreIgnored := by
  intro m f i a' b' h
  refine ⟨fun h0 => decodeWith_ok_congr (f := f) rfl ?_ h, fun h1 => decodeWith_ok_congr (f := f) rfl ?_ h⟩
  · rw [h0]; rfl
  · rw [h1]; rfl

/-! ### Well-formed triples -/

theorem Fetched.wellFormed_iff (m : OpcodeMap) (f : Fetched) :
    f.wellFormed m = true ↔ ∃ x, m x = f.op ∧ f.operandsLegal x.format = true := by
  simp [Fetched.wellFormed, Mnemonic.mem_all]

theorem Fetched.operandsLegal_iff (f : Fetched) (fmt : Format) :
    f.operandsLegal fmt = true ↔ (fmt.hasRegA = true → f.a.toNat ≤ 7) ∧ (fmt.hasRegB = true → f.b.toNat ≤ 7) := by
  cases hA : fmt.hasRegA <;> cases hB : fmt.hasRegB <;> simp [Fetched.operandsLegal, regByteLegal, hA, hB]

/-- The independent check of the operands agrees with the decoder. -/
theorem Fetched.operandsLegal_iff_decodes (f : Fetched) (x : Mnemonic) :
    f.operandsLegal x.format = true ↔ ∃ i, decodeOperands x f = .ok i := by
  rw [Fetched.operandsLegal_iff]
  refine ⟨fun ⟨hA, hB⟩ => decodeOperands_accepts hA hB, fun ⟨i, hi⟩ => ?_⟩
  have hno : ¬ ((x.format.hasRegA = true ∧ 7 < f.a.toNat) ∨ (x.format.hasRegB = true ∧ 7 < f.b.toNat)) := by
    intro hbad
    obtain ⟨_, _, he⟩ := decodeOperands_error hbad
    rw [hi] at he
    cases he
  obtain ⟨hA, hB⟩ := not_or.1 hno
  exact ⟨fun hx => Nat.le_of_not_lt fun ha => hA ⟨hx, ha⟩, fun hx => Nat.le_of_not_lt fun hb => hB ⟨hx, hb⟩⟩

/-- Settles O7: both sides ask for an opcode of the map and operands legal in its format. -/
theorem wellFormedExactlyWhenDecodable : Obligations.WellFormedExactlyWhenDecodable := by
  intro m hm f
  rw [Fetched.wellFormed_iff]
  constructor
  · rintro ⟨x, hx, hlegal⟩
    rw [decodeWith_of_opcode hm hx]
    exact (f.operandsLegal_iff_decodes x).1 hlegal
  · rintro ⟨i, hi⟩
    exact ⟨i.mnemonic, decodeWith_opcode hi, (f.operandsLegal_iff_decodes _).2 ⟨i, (decodeWith_eq_ok hi).2⟩⟩

/-! ### The default map -/

/-- Settles O1: the decoder computes each of the ten verdicts. -/
theorem writtenOutWordsDecode : Obligations.WrittenOutWordsDecode := by
  unfold Obligations.WrittenOutWordsDecode
  decide

/-- No format has three operands, so a legal map has no opcode with bits 7:6 = 11 (30_encoding.md R50; D18). -/
theorem OpcodeMap.lookup_topTwoBits_three {m : OpcodeMap} (hm : m.Legal) {op : Byte} (h : topTwoBits op = 3) :
    m.lookup op = none := by
  refine (m.lookup_eq_none op).2 fun x hx => ?_
  have hcount := hm.count x
  have hle := x.format.operandCount_le_two
  rw [hx, h] at hcount
  omega

/-- Settles O2: the count is computed over the 256 bytes, and bits 7:6 = 11 are illegal under any legal map. -/
theorem defaultOpcodeMapIsLegal : Obligations.DefaultOpcodeMapIsLegal :=
  ⟨opcodeMap_legal, by decide +kernel, by decide, fun _ => OpcodeMap.lookup_topTwoBits_three opcodeMap_legal⟩

end Sys2Proof

/-! Every instruction as one stack check and one effect, which the later proofs split along. -/

namespace Sys2Proof.Machine

/-- The stack check of an instruction; most have none (42_stack.md R82). -/
def hasRoom (i : Instr) (s : State) : Bool :=
  match i with
  | .push _ | .call _ => s.canPush 1
  | .pop _ | .ret => s.canPop 1
  | .iret => s.canPop 9
  | .hlt | .pra _ | .prn _ | .jmp _ | .jeq _ | .jne _ | .ldi _ _ | .st _ _ | .cmp _ _ | .add _ _ | .mul _ _ => true

/-- The record of an instruction whose stack check fails (60_exceptions.md R104). The last arm is that of POP and RET; the
other instructions have no check to fail. -/
def stackFault (i : Instr) (s : State) : Fault :=
  match i with
  | .push _ | .call _ => .stackOverflow s.pc (instructionSource s) s.sp 1
  | .iret => .stackUnderflow s.pc (instructionSource s) s.sp 9
  | _ => .stackUnderflow s.pc (instructionSource s) s.sp 1

/-- What an instruction does when its stack check passes. A conditional jump is a jump whose target the EQUAL bit chooses. -/
def effect (i : Instr) (s : State) : State :=
  match i with
  | .hlt => (s.setRun .halted).advance 1
  | .ret => s.popPc
  | .iret => interruptReturn s
  | .pra a => (s.emit [(s.reg a).toNat]).advance 2
  | .prn a => (s.emit (prnCodePoints (s.reg a))).advance 2
  | .call a => (s.push (s.pc + 2#8)).jumpTo (s.reg a)
  | .pop a => (s.popReg a).advance 2
  | .push a => (s.push (s.reg a)).advance 2
  | .jmp a => s.jumpTo (s.reg a)
  | .jeq a => s.jumpTo (if s.fl.getLsbD 0 = true then s.reg a else s.pc + 2#8)
  | .jne a => s.jumpTo (if s.fl.getLsbD 0 = false then s.reg a else s.pc + 2#8)
  | .ldi a imm => (s.setReg a imm).advance 3
  | .st a b => (s.storeByte (s.reg a) (s.reg b)).advance 3
  | .cmp a b => (s.setFl (compareFlags (s.reg a) (s.reg b))).advance 3
  | .add a b => (s.setReg a (aluAdd (s.reg a) (s.reg b))).advance 3
  | .mul a b => (s.setReg a (aluMul (s.reg a) (s.reg b))).advance 3

section Exec
variable {i : Instr} {s t : State}

theorem exec_jeq_eq (a : Reg) (s : State) : exec (.jeq a) s = .next (effect (.jeq a) s) := by
  cases h : s.fl.getLsbD 0 with
  | true => rw [exec_jeq_taken a s h, effect, if_pos h]
  | false =>
    rw [exec_jeq_not_taken a s h, effect, if_neg (h ▸ Bool.false_ne_true)]
    rfl

theorem exec_jne_eq (a : Reg) (s : State) : exec (.jne a) s = .next (effect (.jne a) s) := by
  cases h : s.fl.getLsbD 0 with
  | true =>
    rw [exec_jne_not_taken a s h, effect, if_neg (by simp [h])]
    rfl
  | false => rw [exec_jne_taken a s h, effect, if_pos h]

/-- The meaning of every instruction, said once: its effect, or its stack fault. -/
theorem exec_eq (i : Instr) (s : State) :
    exec i s = .next (if hasRoom i s then effect i s else s.setRun (.faulted (stackFault i s))) := by
  cases i with
  | push | call | pop | ret | iret => exact (apply_ite Host.Outcome.next _ _ _).symm
  | jeq a => exact exec_jeq_eq a s
  | jne a => exact exec_jne_eq a s
  | hlt | pra | prn | jmp | ldi | st | cmp | add | mul => rfl

theorem exec_of_hasRoom (h : hasRoom i s = true) : exec i s = .next (effect i s) := by
  rw [exec_eq, if_pos h]

theorem exec_of_not_hasRoom (h : hasRoom i s = false) : exec i s = .next (s.setRun (.faulted (stackFault i s))) := by
  rw [exec_eq, if_neg (h ▸ Bool.false_ne_true)]

theorem exec_cases (h : exec i s = .next t) :
    (hasRoom i s = true ∧ t = effect i s) ∨ (hasRoom i s = false ∧ t = s.setRun (.faulted (stackFault i s))) := by
  cases hroom : hasRoom i s with
  | true =>
    rw [exec_of_hasRoom hroom] at h
    cases h
    exact .inl ⟨rfl, rfl⟩
  | false =>
    rw [exec_of_not_hasRoom hroom] at h
    cases h
    exact .inr ⟨rfl, rfl⟩

/-- Only HLT changes the run state, and no effect faults. -/
theorem effect_run (i : Instr) (s : State) : (effect i s).run = if i = .hlt then .halted else s.run := by
  cases i with
  | iret => exact interruptReturn_run s
  | _ => rfl

theorem effect_not_faulted (hr : s.run = .running) (f : Fault) : (effect i s).run ≠ .faulted f := by
  rw [effect_run, hr]
  split <;> simp

/-- A machine that an entry leaves running is not faulted. -/
theorem enterHandler_not_faulted {line : Line} {vector : Byte} (hr : s.run = .running) (f : Fault) :
    (enterHandler line vector s).run ≠ .faulted f := by
  simp [hr]

end Exec

/-! ### The cycle under any map -/

section Cycle
variable {m : OpcodeMap} {s : State}

theorem stepWith_entry {i : Line} (hr : s.run = .running) (hc : interruptCheck s = some i) :
    stepWith m s = interruptEntry i s := by
  rw [stepWith_running m s hr, hc]

theorem stepWith_isNext (m : OpcodeMap) (s : State) : ∃ t, stepWith m s = .next t := by
  by_cases hr : s.run = .running
  · cases hc : interruptCheck s with
    | some i => exact stepWith_entry (m := m) hr hc ▸ interruptEntry_isNext s i
    | none =>
      cases hd : decodeWith m (fetch s) with
      | error e => exact ⟨_, stepWith_error hr hc hd⟩
      | ok i => exact stepWith_ok hr hc hd ▸ exec_isNext i s
  · exact ⟨s, stepWith_stopped m s hr⟩

end Cycle

/-- Settles O13: every branch of the cycle answers a next state. -/
theorem everyStepAnswersANextState : Obligations.EveryStepAnswersANextState := stepWith_isNext opcodeMap

/-! ### The invariant

Memory and output are kept by each operation; a record is true where it is made, and only a raise or a reset can follow it. -/

section Invariant
variable {m : OpcodeMap} {s t : State}

/-- A state that is not faulted has no record to keep true. -/
theorem State.Inv.of_not_faulted (hmem : t.mem.wf = true) (hout : OutputInRange t) (hrun : ∀ f, t.run ≠ .faulted f) :
    t.Inv m :=
  ⟨hmem, hout, fun f hf => absurd hf (hrun f)⟩

theorem recordTrue_setRun {f : Fault} (r : RunState) (h : RecordTrue m s f) : RecordTrue m (s.setRun r) f := by
  cases f with
  | stackOverflow pc src | stackUnderflow pc src => cases src <;> exact h
  | invalidOpcode | invalidRegisterIndex | interruptVectorMissing => exact h

/-- A fault keeps the invariant when its record is true of the state it is taken in (60_exceptions.md R106). -/
theorem State.Inv.fault {f : Fault} (h : s.Inv m) (hf : RecordTrue m s f) : (s.setRun (.faulted f)).Inv m := by
  refine ⟨h.mem, h.output, fun g hg => ?_⟩
  injection hg with hfg
  exact recordTrue_setRun _ (hfg ▸ hf)

theorem recordTrue_decodeFault {e : DecodeError} (h : decodeWith m (fetch s) = .error e) :
    RecordTrue m s (decodeFault s.pc e) := by
  rcases decodeWith_eq_error h with ⟨hno, rfl⟩ | ⟨ha, rfl⟩ | ⟨hb, rfl⟩
  · exact ⟨rfl, rfl, hno⟩
  · exact ⟨rfl, rfl, ha, rfl⟩
  · exact ⟨rfl, rfl, hb, rfl⟩

theorem recordTrue_stackFault {i : Instr} (h : hasRoom i s = false) : RecordTrue m s (stackFault i s) := by
  cases i with
  | push | call | pop | ret | iret => exact ⟨rfl, rfl, h, rfl⟩
  | _ => cases h

theorem OutputInRange.emit {cs : List CodePoint} (h : OutputInRange s) (hcs : ∀ c ∈ cs, c < 256) :
    OutputInRange (s.emit cs) :=
  fun c hc => (List.mem_append.1 hc).elim (h c) (hcs c)

theorem effect_wf (i : Instr) (h : s.mem.wf = true) : (effect i s).mem.wf = true := by
  cases i with
  | st a b => exact s.mem.wf_write _ _ h
  | push a => exact s.push_wf _ h
  | call a => exact s.push_wf _ h
  | iret => exact (congrArg Memory.wf (interruptReturn_mem s)).trans h
  | _ => exact h

theorem effect_outputInRange (i : Instr) (h : OutputInRange s) : OutputInRange (effect i s) := by
  cases i with
  | prn a => exact h.emit (prnCodePoints_lt (s.reg a))
  | pra a => exact h.emit fun c hc => List.mem_singleton.1 hc ▸ (s.reg a).isLt
  | iret => exact fun c hc => h c (interruptReturn_output s ▸ hc)
  | _ => exact h

theorem exec_keeps_inv {i : Instr} (h : s.Inv m) (hr : s.run = .running) (he : exec i s = .next t) : t.Inv m := by
  rcases exec_cases he with ⟨-, rfl⟩ | ⟨hroom, rfl⟩
  · exact .of_not_faulted (effect_wf i h.mem) (effect_outputInRange i h.output) (effect_not_faulted hr)
  · exact h.fault (recordTrue_stackFault hroom)

theorem interruptEntry_keeps_inv {i : Line} (h : s.Inv m) (hr : s.run = .running) (hc : interruptCheck s = some i)
    (he : interruptEntry i s = .next t) : t.Inv m := by
  obtain ⟨hie, hpending, -⟩ := interruptCheck_eq_some_iff_lowest.1 hc
  rcases interruptEntry_cases s t he with ⟨hv, rfl⟩ | ⟨-, -, rfl⟩ | ⟨-, hroom, rfl⟩
  · exact h.fault ⟨rfl, rfl, hv, hie, hpending⟩
  · refine .of_not_faulted (enterHandler_wf s i _ h.mem) ?_ (enterHandler_not_faulted hr)
    exact fun c hc => h.output c (enterHandler_output s i _ ▸ hc)
  · exact h.fault ⟨rfl, rfl, hroom, hie, hpending⟩

theorem stepWith_keeps_inv (h : s.Inv m) (hs : stepWith m s = .next t) : t.Inv m := by
  rcases stepWith_cases hs with ⟨-, rfl⟩ | ⟨hr, i, hc, he⟩ | ⟨-, -, e, hd, rfl⟩ | ⟨hr, -, i, -, he⟩
  · exact h
  · exact interruptEntry_keeps_inv h hr hc he
  · exact h.fault (recordTrue_decodeFault hd)
  · exact exec_keeps_inv h hr he

/-- A raise only sets bits of IS, so a pending enabled line stays so. -/
theorem pendingEnabled_raiseInterrupt {j : Line} (i : Line) (h : pendingEnabled s j = true) :
    pendingEnabled (raiseInterrupt i s) j = true := by
  by_cases hj : j = i
  · subst hj
    rw [pendingEnabled_raiseInterrupt_same]
    exact (Bool.and_eq_true_iff.1 h).2
  · rwa [pendingEnabled_raiseInterrupt_other s hj]

theorem sourceTrue_raiseInterrupt {src : FaultSource} (i : Line) (h : SourceTrue s src) :
    SourceTrue (raiseInterrupt i s) src := by
  cases src with
  | instruction op => exact h
  | interruptEntry line => exact ⟨h.1, pendingEnabled_raiseInterrupt i h.2⟩

theorem recordTrue_raiseInterrupt {f : Fault} (i : Line) (h : RecordTrue m s f) : RecordTrue m (raiseInterrupt i s) f := by
  cases f with
  | invalidOpcode | invalidRegisterIndex => exact h
  | stackOverflow pc src sp k | stackUnderflow pc src sp k =>
    obtain ⟨hpc, hsp, hroom, hsrc⟩ := h
    exact ⟨hpc, hsp, hroom, sourceTrue_raiseInterrupt i hsrc⟩
  | interruptVectorMissing line addr pc =>
    obtain ⟨hpc, haddr, hv, hie, hpending⟩ := h
    exact ⟨hpc, haddr, hv, hie, pendingEnabled_raiseInterrupt i hpending⟩

theorem raiseInterrupt_keeps_inv (i : Line) (h : s.Inv m) : (raiseInterrupt i s).Inv m :=
  ⟨h.mem, h.output, fun f hf => recordTrue_raiseInterrupt i (h.record f hf)⟩

theorem hostReset_keeps_inv (h : s.Inv m) : (hostReset s).Inv m :=
  .of_not_faulted h.mem h.output (fun _ hf => by cases hf)

theorem perform_keeps_inv (e : HostEvent) (h : s.Inv m) : ∃ t, perform m e s = .next t ∧ t.Inv m := by
  cases e with
  | cycle =>
    obtain ⟨t, ht⟩ := stepWith_isNext m s
    exact ⟨t, ht, stepWith_keeps_inv h ht⟩
  | raise i => exact ⟨_, rfl, raiseInterrupt_keeps_inv i h⟩
  | reset => exact ⟨_, rfl, hostReset_keeps_inv h⟩

theorem performAll_cons {e : HostEvent} (rest : List HostEvent) (h : perform m e s = .next t) :
    performAll m (e :: rest) s = performAll m rest t := by
  simp only [performAll, h]

theorem performAll_keeps_inv (events : List HostEvent) (h : s.Inv m) :
    ∃ t, performAll m events s = .next t ∧ t.Inv m := by
  induction events generalizing s with
  | nil => exact ⟨s, rfl, h⟩
  | cons e rest ih =>
    obtain ⟨u, hu, hinv⟩ := perform_keeps_inv e h
    rw [performAll_cons rest hu]
    exact ih hinv

theorem loadFrom_wf (addr : Nat) (image : List Byte) (mem : Memory) (h : mem.wf = true) :
    (loadFrom addr image mem).wf = true := by
  induction image generalizing addr mem with
  | nil => exact h
  | cons v rest ih =>
    unfold loadFrom
    split
    · exact ih _ _ (mem.wf_write _ v h)
    · exact h

theorem boot_inv (m : OpcodeMap) (image : List Byte) : (State.boot image).Inv m :=
  .of_not_faulted (loadFrom_wf 0 image _ Memory.wf_empty) (fun _ hc => by cases hc) (fun _ hf => by cases hf)

end Invariant

/-- Settles O52: the machine just created is the one booted with no image. -/
theorem invariantHoldsAtReset : Obligations.InvariantHoldsAtReset := fun m => boot_inv m []

/-- Settles O53: an effect or an entry leaves no record, and a fault's record is true of the state it is taken in. -/
theorem everyStepKeepsTheInvariant : Obligations.EveryStepKeepsTheInvariant :=
  ⟨fun _ _ => stepWith_keeps_inv, fun _ _ _ => stepWith_keeps_inv⟩

/-- Settles O54: induction on the list of actions, each of which completes and keeps the invariant. -/
theorem everyRunKeepsTheInvariant : Obligations.EveryRunKeepsTheInvariant :=
  ⟨fun _ events _ => performAll_keeps_inv events, fun m events image => performAll_keeps_inv events (boot_inv m image)⟩

end Sys2Proof.Machine

/-! The cycle under any legal map: what it runs, which faults it takes, and that a fault is precise
(40_cycle_decode.md R60 to R71). -/

namespace Sys2Proof.Machine

section Map
variable {m : OpcodeMap} {s : State}

/-- A running machine with no interrupt to serve runs the instruction whose encoding lies at pc. -/
theorem stepWith_of_encoding {i : Instr} (hm : m.Legal) (hr : s.run = .running) (hc : interruptCheck s = none)
    (h : encodeWith m i <+: (fetch s).bytes) : stepWith m s = exec i s :=
  stepWith_ok hr hc (decodeWith_of_encoding hm h)

theorem stepWith_invalidOpcode (hr : s.run = .running) (hc : interruptCheck s = none) (h : ∀ x, m x ≠ s.byteAt s.pc) :
    stepWith m s = .next (s.setRun (.faulted (.invalidOpcode s.pc (s.byteAt s.pc)))) :=
  stepWith_error hr hc (decodeWith_unlisted (f := fetch s) h)

theorem stepWith_invalidRegister_a {x : Mnemonic} (hm : m.Legal) (hr : s.run = .running) (hc : interruptCheck s = none)
    (hx : m x = s.byteAt s.pc) (hA : x.format.hasRegA = true) (ha : 7 < (s.byteAt (s.pc + 1#8)).toNat) :
    stepWith m s = .next (s.setRun (.faulted
      (.invalidRegisterIndex s.pc (s.byteAt s.pc) .a (s.byteAt (s.pc + 1#8))))) :=
  stepWith_error hr hc ((decodeWith_of_opcode (f := fetch s) hm hx).trans (decodeOperands_error_a hA ha))

theorem stepWith_invalidRegister_b {x : Mnemonic} (hm : m.Legal) (hr : s.run = .running) (hc : interruptCheck s = none)
    (hx : m x = s.byteAt s.pc) (hB : x.format.hasRegB = true) (ha : (s.byteAt (s.pc + 1#8)).toNat ≤ 7)
    (hb : 7 < (s.byteAt (s.pc + 2#8)).toNat) :
    stepWith m s = .next (s.setRun (.faulted
      (.invalidRegisterIndex s.pc (s.byteAt s.pc) .b (s.byteAt (s.pc + 2#8))))) :=
  stepWith_error hr hc ((decodeWith_of_opcode (f := fetch s) hm hx).trans (decodeOperands_error_b hB ha hb))

/-- Where nothing is fetched the map does not matter. -/
theorem stepWith_map_irrelevant (m n : OpcodeMap) (h : s.run ≠ .running ∨ (interruptCheck s).isSome = true) :
    stepWith m s = stepWith n s := by
  by_cases hr : s.run = .running
  · obtain ⟨i, hi⟩ := Option.isSome_iff_exists.1 (h.resolve_left (not_not_intro hr))
    rw [stepWith_entry hr hi, stepWith_entry hr hi]
  · rw [stepWith_stopped m s hr, stepWith_stopped n s hr]

end Map

/-- Settles O55: the decoder's verdict under the map decides the cycle, and is not asked for where nothing is fetched. -/
theorem everyOpcodeMapDrivesTheSameMachine : Obligations.EveryOpcodeMapDrivesTheSameMachine := by
  refine ⟨step_eq, fun m s hm hr hc => ⟨fun i h => ?_, fun h => ?_, fun x hx hA ha => ?_, fun x hx hB ha hb => ?_⟩,
    fun m n s => stepWith_map_irrelevant m n⟩
  · exact stepWith_of_encoding hm hr hc h
  · exact stepWith_invalidOpcode hr hc h
  · exact stepWith_invalidRegister_a hm hr hc hx hA ha
  · exact stepWith_invalidRegister_b hm hr hc hx hB ha hb

/-- Settles O12: both readings give the decoder's verdict, an encoding because the default map is legal. -/
theorem stepRunsTheDecodedInstruction : Obligations.StepRunsTheDecodedInstruction :=
  fun _ _ hr hc => ⟨step_ok hr hc, stepWith_of_encoding opcodeMap_legal hr hc⟩

/-- Settles O14: a stopped cycle is the identity, also after the raise, which keeps the run state. -/
theorem stoppedMachineOnlyLatchesRaises : Obligations.StoppedMachineOnlyLatchesRaises :=
  fun s _ h => ⟨step_stopped s h, s.setReg_reg_same .is _, step_stopped _ h⟩

/-- Settles O15: the decode fault of a byte outside the default map. -/
theorem illegalOpcodeFaults : Obligations.IllegalOpcodeFaults := fun _ => stepWith_invalidOpcode

/-- Settles O16: the decode faults of the default map, whose opcode for `x` is the byte at pc. -/
theorem illegalRegisterOperandFaults : Obligations.IllegalRegisterOperandFaults := by
  intro x s hr hc hop
  rw [← hop]
  exact ⟨stepWith_invalidRegister_a opcodeMap_legal hr hc hop.symm,
    stepWith_invalidRegister_b opcodeMap_legal hr hc hop.symm⟩

section Outcome
variable {s t : State}

theorem interruptEntry_precise {i : Line} {f : Fault} (hr : s.run = .running) (h : interruptEntry i s = .next t)
    (hf : t.run = .faulted f) : t = s.setRun (.faulted f) := by
  rcases interruptEntry_cases s t h with ⟨-, rfl⟩ | ⟨-, -, rfl⟩ | ⟨-, -, rfl⟩
  · exact congrArg s.setRun hf
  · exact absurd hf (enterHandler_not_faulted hr f)
  · exact congrArg s.setRun hf

theorem exec_precise {i : Instr} {f : Fault} (hr : s.run = .running) (h : exec i s = .next t)
    (hf : t.run = .faulted f) : t = s.setRun (.faulted f) := by
  rcases exec_cases h with ⟨-, rfl⟩ | ⟨-, rfl⟩
  · exact absurd hf (effect_not_faulted hr f)
  · exact congrArg s.setRun hf

theorem interruptEntry_not_halted {i : Line} (hr : s.run = .running) (h : interruptEntry i s = .next t) :
    t.run ≠ .halted := by
  rcases interruptEntry_cases s t h with ⟨-, rfl⟩ | ⟨-, -, rfl⟩ | ⟨-, -, rfl⟩ <;> simp [hr]

theorem exec_halted {i : Instr} (hr : s.run = .running) (h : exec i s = .next t) (hh : t.run = .halted) : i = .hlt := by
  rcases exec_cases h with ⟨-, rfl⟩ | ⟨-, rfl⟩
  · by_contra hne
    rw [effect_run, if_neg hne, hr] at hh
    cases hh
  · cases hh

end Outcome

/-- Settles O17: every branch of the cycle that faults is the one update of the run state. -/
theorem faultsArePrecise : Obligations.FaultsArePrecise := by
  intro s t f hr h hf
  rcases step_cases h with ⟨hstopped, -⟩ | ⟨-, i, -, he⟩ | ⟨-, -, e, -, rfl⟩ | ⟨-, -, i, -, he⟩
  · exact absurd hr hstopped
  · exact interruptEntry_precise hr he hf
  · exact congrArg s.setRun hf
  · exact exec_precise hr he hf

/-- Settles O18: of all branches of the cycle only the effect of HLT ends halted. -/
theorem haltedOnlyByHlt : Obligations.HaltedOnlyByHlt := by
  intro s t hne h hh
  rcases step_cases h with ⟨-, rfl⟩ | ⟨hr, i, -, he⟩ | ⟨-, -, e, -, rfl⟩ | ⟨hr, hc, i, hd, he⟩
  · exact absurd hh hne
  · exact absurd hh (interruptEntry_not_halted hr he)
  · cases hh
  · exact ⟨hr, hc, exec_halted hr he hh ▸ hd⟩

/-- Settles O19: a fault keeps pc, and each effect gives pc the one value listed for its instruction. -/
theorem pcChangesInExactlyOneWay : Obligations.PcChangesInExactlyOneWay := by
  intro i s t hr h
  rcases exec_cases h with ⟨-, rfl⟩ | ⟨-, rfl⟩
  · refine ⟨fun f hf => absurd hf (effect_not_faulted hr f), fun _ => ?_⟩
    rw [opcodeMap_legal.count i.mnemonic]
    cases i with
    | iret => exact interruptReturn_pc s
    | _ => rfl
  · exact ⟨fun _ _ => rfl, fun hno => absurd rfl (hno _)⟩

/-! ### Who writes what -/

section Writers
variable {i : Instr} {s t : State} {b : Bool}

theorem hasRoom_setIe (i : Instr) (s : State) (b : Bool) : hasRoom i (s.setIe b) = hasRoom i s := by
  cases i <;> rfl

theorem stackFault_setIe (i : Instr) (s : State) (b : Bool) : stackFault i (s.setIe b) = stackFault i s := by
  cases i <;> rfl

theorem effect_setIe (hi : i ≠ .iret) : effect i (s.setIe b) = (effect i s).setIe b := by
  cases i with
  | iret => exact absurd rfl hi
  | _ => rfl

/-- A stack fault does not look at `ie`. -/
theorem exec_setIe_of_not_hasRoom (hroom : hasRoom i s = false) (h : exec i s = .next t) :
    exec i (s.setIe b) = .next (t.setIe b) := by
  rw [exec_of_not_hasRoom hroom] at h
  cases h
  rw [exec_of_not_hasRoom ((hasRoom_setIe i s b).trans hroom), stackFault_setIe]
  rfl

/-- No instruction but IRET looks at `ie` or writes it (10_state.md R17). -/
theorem exec_setIe (hi : i ≠ .iret) (h : exec i s = .next t) : exec i (s.setIe b) = .next (t.setIe b) := by
  rcases exec_cases h with ⟨hroom, rfl⟩ | ⟨hroom, -⟩
  · rw [exec_of_hasRoom ((hasRoom_setIe i s b).trans hroom), effect_setIe hi]
  · exact exec_setIe_of_not_hasRoom hroom h

theorem exec_iret_setIe (h : s.canPop 9 = true) : exec .iret (s.setIe b) = exec .iret s := by
  rw [exec_iret_of_canPop h, exec_iret_of_canPop (s := s.setIe b) h, interruptReturn_setIe]

/-- Where an instruction changes `ie`, it is an IRET that sets it. -/
theorem exec_ie_changes (h : exec i s = .next t) (hne : t.ie ≠ s.ie) : i = .iret ∧ t.ie = true := by
  rcases exec_cases h with ⟨-, rfl⟩ | ⟨-, rfl⟩
  · cases i with
    | iret => exact ⟨rfl, interruptReturn_ie s⟩
    | _ => exact absurd rfl hne
  · exact absurd rfl hne

theorem interruptEntry_ie_changes {line : Line} (h : interruptEntry line s = .next t) (hne : t.ie ≠ s.ie) :
    t.ie = false := by
  rcases interruptEntry_cases s t h with ⟨-, rfl⟩ | ⟨-, -, rfl⟩ | ⟨-, -, rfl⟩
  · exact absurd rfl hne
  · exact enterHandler_ie s line _
  · exact absurd rfl hne

theorem exec_mem_changes (h : exec i s = .next t) (hne : t.mem ≠ s.mem) :
    (∃ a b, i = .st a b) ∨ (∃ a, i = .push a) ∨ ∃ a, i = .call a := by
  rcases exec_cases h with ⟨-, rfl⟩ | ⟨-, rfl⟩
  · cases i with
    | st a b => exact .inl ⟨a, b, rfl⟩
    | push a => exact .inr (.inl ⟨a, rfl⟩)
    | call a => exact .inr (.inr ⟨a, rfl⟩)
    | iret => exact absurd (interruptReturn_mem s) hne
    | _ => exact absurd rfl hne
  · exact absurd rfl hne

end Writers

/-- Settles O21: an entry clears `ie` and an IRET sets it; every other effect commutes with a change of `ie`. -/
theorem ieChangesOnlyByEntryAndIret : Obligations.IeChangesOnlyByEntryAndIret := by
  refine ⟨fun s t h hne => ?_, fun _ _ _ _ h hi => exec_setIe hi h, fun _ _ => exec_iret_setIe,
    fun _ _ _ hroom h => exec_setIe_of_not_hasRoom hroom h⟩
  rcases step_cases h with ⟨-, rfl⟩ | ⟨-, i, hc, he⟩ | ⟨-, -, e, -, rfl⟩ | ⟨-, -, i, hd, he⟩
  · exact absurd rfl hne
  · exact .inl ⟨(interruptCheck_eq_some_iff_lowest.1 hc).1, interruptEntry_ie_changes he hne, i, hc⟩
  · exact absurd rfl hne
  · obtain ⟨rfl, ht⟩ := exec_ie_changes he hne
    exact .inr ⟨Bool.eq_false_of_not_eq_true fun hs => hne (ht.trans hs.symm), ht, hd⟩

/-- Settles O22: the effects of ST, PUSH and CALL store; outside an entry no other branch of the cycle does. -/
theorem memoryWritersAreStPushCallAndEntry : Obligations.MemoryWritersAreStPushCallAndEntry := by
  intro s t h hne
  rcases step_cases h with ⟨-, rfl⟩ | ⟨-, i, hc, -⟩ | ⟨-, -, e, -, rfl⟩ | ⟨-, -, i, hd, he⟩
  · exact absurd rfl hne
  · exact .inl ⟨i, hc⟩
  · exact absurd rfl hne
  · rcases exec_mem_changes he hne with ⟨a, b, rfl⟩ | ⟨a, rfl⟩ | ⟨a, rfl⟩
    · exact .inr (.inl ⟨a, b, hd⟩)
    · exact .inr (.inr (.inl ⟨a, hd⟩))
    · exact .inr (.inr (.inr ⟨a, hd⟩))

section Registers
variable (s : State)

theorem sameRegsBut_push (v : Byte) : SameRegsBut s (s.push v) [.sp] := sameRegsBut_setReg s .sp s.pushAddress

theorem sameRegsBut_dropTop : SameRegsBut s s.dropTop [.sp] := sameRegsBut_setReg s .sp _

theorem sameRegsBut_popReg (a : Reg) : SameRegsBut s (s.popReg a) [.sp, a] := by
  intro r hr
  obtain ⟨hsp, ha⟩ := not_or.1 (mt List.mem_pair.2 hr)
  rw [State.popReg_reg, if_neg ha, if_neg hsp]

theorem sameRegsBut_effect (i : Instr) : SameRegsBut s (effect i s) (writtenRegs i) := by
  cases i with
  | hlt | pra | prn | jmp | jeq | jne | st | cmp => exact fun _ _ => rfl
  | ldi a | add a | mul a => exact sameRegsBut_setReg s a _
  | push a => exact sameRegsBut_push s (s.reg a)
  | call => exact sameRegsBut_push s (s.pc + 2#8)
  | ret => exact sameRegsBut_dropTop s
  | pop a => exact sameRegsBut_popReg s a
  | iret =>
    intro r hr
    exact absurd (by cases r <;> decide) hr

theorem sameRegsBut_enterHandler (i : Line) (vector : Byte) : SameRegsBut s (enterHandler i vector s) [.is, .sp] := by
  intro r hr
  obtain ⟨his, hsp⟩ := not_or.1 (mt List.mem_pair.2 hr)
  exact enterHandler_reg_other s i vector r his hsp

end Registers

/-- Settles O24: a fault changes no register; an effect, an entry and a raise change the listed ones. -/
theorem registersChangeOnlyAsTheTableSays : Obligations.RegistersChangeOnlyAsTheTableSays := by
  refine ⟨fun i s t h => ?_, fun i s t h => ?_, fun i s => sameRegsBut_setReg s .is _⟩
  · rcases exec_cases h with ⟨-, rfl⟩ | ⟨-, rfl⟩
    · exact sameRegsBut_effect s i
    · exact fun _ _ => rfl
  · rcases interruptEntry_cases s t h with ⟨-, rfl⟩ | ⟨-, -, rfl⟩ | ⟨-, -, rfl⟩
    · exact fun _ _ => rfl
    · exact sameRegsBut_enterHandler s i _
    · exact fun _ _ => rfl

/-! ### Recoding -/

/-- The same byte stored at the same address keeps cells alike that were alike. -/
theorem storeByte_alike {s t : State} (hs : s.mem.wf = true) (ht : t.mem.wf = true) (c v a : Byte)
    (h : s.byteAt a = t.byteAt a) : (s.storeByte c v).byteAt a = (t.storeByte c v).byteAt a := by
  rw [State.storeByte_byteAt s c v a hs, State.storeByte_byteAt t c v a ht, h]

section Recoded
variable {i : Instr} {s : State} {mem : Memory} (hpop : ∀ a, i ≠ .pop a) (hret : i ≠ .ret) (hiret : i ≠ .iret)
include hpop hret hiret

/-- An instruction that reads no memory has the same effect on everything else, whatever memory is. -/
theorem effect_with_mem :
    ({ effect i { s with mem := mem } with mem := (effect i s).mem } : State) = effect i s := by
  cases i with
  | pop a => exact absurd rfl (hpop a)
  | ret => exact absurd rfl hret
  | iret => exact absurd rfl hiret
  | _ => rfl

theorem effect_alike {c : Byte} (hs : s.mem.wf = true) (hmem : mem.wf = true)
    (h : s.byteAt c = ({ s with mem := mem } : State).byteAt c) :
    (effect i s).byteAt c = (effect i { s with mem := mem }).byteAt c := by
  cases i with
  | pop a => exact absurd rfl (hpop a)
  | ret => exact absurd rfl hret
  | iret => exact absurd rfl hiret
  | st | push | call => exact storeByte_alike (t := { s with mem := mem }) hs hmem _ _ c h
  | _ => exact h

end Recoded

/-- Settles O56: both cycles are the same instruction's effect, which memory decides in memory alone. -/
theorem recodedInstructionsRunAlike : Obligations.RecodedInstructionsRunAlike := by
  intro m n s t i hm hn hr hc hencm hencn hws hwt hts hstack hpop hret hiret
  obtain ⟨mem, rfl⟩ : ∃ mem, t = { s with mem := mem } := ⟨t.mem, by rw [← hts]⟩
  have hroom : hasRoom i s = true := by
    cases i with
    | push a => exact hstack a (.inl rfl)
    | call a => exact hstack a (.inr rfl)
    | pop a => exact absurd rfl (hpop a)
    | ret => exact absurd rfl hret
    | iret => exact absurd rfl hiret
    | _ => rfl
  have hroom' : hasRoom i { s with mem := mem } = true := by
    rw [← hroom]
    cases i <;> rfl
  have hs := (stepWith_of_encoding hm hr hc hencm).trans (exec_of_hasRoom hroom)
  have ht := (stepWith_of_encoding (s := { s with mem := mem }) hn hr hc hencn).trans (exec_of_hasRoom hroom')
  exact ⟨_, _, hs, ht, effect_with_mem hpop hret hiret, fun c => effect_alike hpop hret hiret hws hwt⟩

end Sys2Proof.Machine

/-! Memory at boot (70_reset_and_hazards.md R133) and the coherence of stores with fetches (20_memory.md R43). -/

namespace Sys2Proof.Machine

/-- A loaded image that fits: its own bytes from `addr` on, every other cell as before. -/
theorem loadFrom_read (addr : Nat) (image : List Byte) (mem : Memory) (hw : mem.wf = true)
    (hfit : addr + image.length ≤ 256) (a : Byte) :
    (loadFrom addr image mem).read a =
      if a.toNat < addr then mem.read a else image.getD (a.toNat - addr) (mem.read a) := by
  induction image generalizing addr mem with
  | nil => simp [loadFrom]
  | cons v rest ih =>
    rw [List.length_cons] at hfit
    have haddr : (BitVec.ofNat 8 addr : Byte).toNat = addr := Nat.mod_eq_of_lt (by omega)
    rw [loadFrom, if_pos (by omega), ih _ _ (mem.wf_write _ v hw) (by omega), Memory.read_write _ _ _ _ hw]
    rcases lt_trichotomy a.toNat addr with hlt | heq | hgt
    · have hne : a ≠ BitVec.ofNat 8 addr := fun h => by rw [h] at hlt; omega
      rw [if_pos hlt, if_pos (by omega), if_neg hne]
    · have ha : a = BitVec.ofNat 8 addr := BitVec.eq_of_toNat_eq (heq.trans haddr.symm)
      rw [if_neg (by omega : ¬ a.toNat < addr), if_pos (by omega), if_pos ha, heq, Nat.sub_self, List.getD_cons_zero]
    · have hne : a ≠ BitVec.ofNat 8 addr := fun h => by rw [h] at hgt; omega
      rw [if_neg (by omega : ¬ a.toNat < addr), if_neg (by omega), if_neg hne,
        show a.toNat - addr = a.toNat - (addr + 1) + 1 by omega, List.getD_cons_succ]

/-- What lies at an address of a booted machine: the image's byte, or zero past its end. -/
theorem boot_byteAt {image : List Byte} (h : image.length ≤ 256) (a : Byte) :
    (State.boot image).byteAt a = image.getD a.toNat 0x00#8 :=
  loadFrom_read 0 image ⟨[]⟩ Memory.wf_empty (by omega) a

/-- Settles O10: the loaded image read back, inside and past its end. -/
theorem bootPlacesTheImage : Obligations.BootPlacesTheImage := by
  refine fun image h => ⟨(boot_inv opcodeMap image).mem, fun k hk => ?_, fun a ha => ?_, rfl⟩
  · have hk' : (BitVec.ofNat 8 k : Byte).toNat = k := Nat.mod_eq_of_lt (by omega)
    rw [boot_byteAt h, hk', List.getD_eq_getElem _ _ hk]
  · rw [boot_byteAt h, List.getD_eq_default _ _ ha]

/-- Settles O11: the fetch reads the three bytes at the new pc, and the stored byte is read where it was stored. -/
theorem fetchSeesTheStoredByte : Obligations.FetchSeesTheStoredByte := by
  intro a b s hw
  have hread (c : Byte) (h : s.reg a = c) : (effect (.st a b) s).byteAt c = s.reg b :=
    h ▸ s.storeByte_byteAt_same (s.reg a) (s.reg b) hw
  exact ⟨effect (.st a b) s, exec_of_hasRoom rfl, hread _, hread _, hread _⟩

/-! ### The instructions without a stack check -/

/-- Each value CMP writes is reached by its own order of the operands (41_alu.md R78). -/
theorem compareFlags_spec (x y : Byte) :
    (x = y → compareFlags x y = 0b00000001#8) ∧ (y.toNat < x.toNat → compareFlags x y = 0b00000010#8) ∧
    (x.toNat < y.toNat → compareFlags x y = 0b00000100#8) := by
  rcases compareFlags_cases x y with ⟨rfl, hf⟩ | ⟨h, hf⟩ | ⟨h, hf⟩
  · exact ⟨fun _ => hf, fun hlt => absurd hlt (lt_irrefl _), fun hlt => absurd hlt (lt_irrefl _)⟩
  · exact ⟨fun heq => absurd h (heq ▸ lt_irrefl _), fun _ => hf, fun hlt => absurd hlt h.asymm⟩
  · exact ⟨fun heq => absurd h (heq ▸ lt_irrefl _), fun hlt => absurd hlt h.asymm, fun _ => hf⟩

/-- Settles O27: the effect of CMP is one write of `fl` and the advance. -/
theorem cmpSetsExactlyOneFlag : Obligations.CmpSetsExactlyOneFlag := by
  intro a b s
  obtain ⟨heq, hgt, hlt⟩ := compareFlags_spec (s.reg a) (s.reg b)
  exact ⟨effect (.cmp a b) s, exec_of_hasRoom rfl, heq, hgt, hlt, sameRegsBut_effect s (.cmp a b), rfl, rfl, rfl, rfl,
    fun _ _ => rfl⟩

/-- The digits of a number below 1000: decimal, one to three, no leading zero, and together the number
(43_data_io.md R89; D15). -/
theorem decimalDigits_spec {n : Nat} (h : n < 1000) :
    (∀ d ∈ decimalDigits n, d < 10) ∧ 1 ≤ (decimalDigits n).length ∧ (decimalDigits n).length ≤ 3 ∧
    ((decimalDigits n).head? = some 0 → decimalDigits n = [0]) ∧
    (decimalDigits n).foldl (fun m d => 10 * m + d) 0 = n := by
  unfold decimalDigits
  split
  · simp_all
  · split <;> simp <;> omega

/-- Settles O35: the effect of PRN is the output of the digits and the newline, and the advance. -/
theorem prnEmitsTheDecimalValue : Obligations.PrnEmitsTheDecimalValue := by
  intro a s
  obtain ⟨hten, hone, hthree, hzero, hvalue⟩ := decimalDigits_spec (n := (s.reg a).toNat) (by have := (s.reg a).isLt; omega)
  exact ⟨effect (.prn a) s, decimalDigits (s.reg a).toNat, exec_of_hasRoom rfl, (List.append_assoc _ _ _).symm, hten, hone,
    hthree, hzero, hvalue, sameRegsBut_effect s (.prn a), rfl, rfl, rfl, rfl, fun _ _ => rfl⟩

/-- Settles O36: the effect of PRA is the output of one code point, and the advance. -/
theorem praEmitsOneCodePoint : Obligations.PraEmitsOneCodePoint :=
  fun a s => ⟨effect (.pra a) s, exec_of_hasRoom rfl, rfl, sameRegsBut_effect s (.pra a), rfl, rfl, rfl, rfl, fun _ _ => rfl⟩

/-- Settles O38: the effect of either jump sets pc alone, to the target that the EQUAL bit chooses. -/
theorem jeqAndJneFollowTheEqualBit : Obligations.JeqAndJneFollowTheEqualBit := by
  refine ⟨fun a s => ⟨_, exec_jeq_eq a s, fun h => ?_, fun h => ?_, jumpTo_frame rfl⟩,
    fun a s => ⟨_, exec_jne_eq a s, fun h => ?_, fun h => ?_, jumpTo_frame rfl⟩⟩
  · exact if_pos h
  · exact if_neg (by rw [h]; decide)
  · exact if_pos h
  · exact if_neg (by rw [h]; decide)

/-- Settles O42: the effect of HLT is the halt and the advance. -/
theorem hltHalts : Obligations.HltHalts :=
  fun s => ⟨effect .hlt s, exec_of_hasRoom rfl, rfl, rfl, sameRegsBut_effect s .hlt, fun _ _ => rfl, rfl, rfl, rfl⟩

end Sys2Proof.Machine

/-! The stack instructions inside and outside their bounds (42_stack.md R82 to R84; 44_control.md R96, R97). -/

namespace Sys2Proof.Machine

theorem toNat_sub_ofNat {x : Byte} {k : Nat} (h : k ≤ x.toNat) : (x - BitVec.ofNat 8 k).toNat = x.toNat - k := by
  have hx := x.isLt
  rw [BitVec.toNat_sub, BitVec.toNat_ofNat]
  omega

theorem toNat_add_ofNat {x : Byte} {k : Nat} (h : x.toNat + k < 256) : (x + BitVec.ofNat 8 k).toNat = x.toNat + k := by
  rw [BitVec.toNat_add, BitVec.toNat_ofNat]
  omega

section Push
variable {s : State} (v : Byte) (h : s.mem.wf = true)
include h

theorem push_byteAt_pushAddress : (s.push v).byteAt s.pushAddress = v := State.storeByte_byteAt_same _ s.pushAddress v h

theorem sameBytesBut_push : SameBytesBut s (s.push v) [s.pushAddress] :=
  sameBytesBut_storeByte (s.setReg .sp s.pushAddress) s.pushAddress v h

end Push

section Bounds
variable {s : State} {k : Nat}

theorem canPush_eq_false (h : s.sp.toNat < k ∨ 0xF5 < s.sp.toNat) : s.canPush k = false := by
  refine Bool.eq_false_of_not_eq_true fun hcan => ?_
  obtain ⟨hk, hmax⟩ := (canPush_iff s k).1 hcan
  omega

theorem canPop_eq_false (h : 0xF4 < s.sp.toNat + k) : s.canPop k = false := by
  refine Bool.eq_false_of_not_eq_true fun hcan => ?_
  have hmax := (canPop_iff s k).1 hcan
  omega

end Bounds

/-- Settles O28: PUSH with room is one push and the advance. -/
theorem pushStoresBelowTheStackPointer : Obligations.PushStoresBelowTheStackPointer := by
  intro a s hw hlo hhi
  have hroom : hasRoom (.push a) s = true := (canPush_iff s 1).2 ⟨hlo, hhi⟩
  exact ⟨effect (.push a) s, exec_of_hasRoom hroom, rfl, push_byteAt_pushAddress _ hw, rfl, sameBytesBut_push _ hw,
    sameRegsBut_effect s (.push a), rfl, rfl, rfl, rfl, rfl⟩

/-- Settles O29: POP with room is one pop and the advance. -/
theorem popLoadsTheTopByte : Obligations.PopLoadsTheTopByte := by
  intro a s h
  have hroom : hasRoom (.pop a) s = true := (canPop_iff s 1).2 (by omega)
  refine ⟨effect (.pop a) s, exec_of_hasRoom hroom, ?_, fun ha => s.popReg_sp a ha, sameRegsBut_effect s (.pop a),
    fun _ _ => rfl, rfl, rfl, rfl, rfl, rfl⟩
  exact (s.popReg_reg a a).trans (if_pos rfl)

/-- Settles O39: CALL with room is one push of the return address and the jump. -/
theorem callPushesTheReturnAddress : Obligations.CallPushesTheReturnAddress := by
  intro a s hw hlo hhi
  have hroom : hasRoom (.call a) s = true := (canPush_iff s 1).2 ⟨hlo, hhi⟩
  exact ⟨effect (.call a) s, exec_of_hasRoom hroom, rfl, rfl, push_byteAt_pushAddress _ hw, rfl, sameBytesBut_push _ hw,
    sameRegsBut_effect s (.call a), rfl, rfl, rfl, rfl⟩

/-- Settles O40: RET with room is one pop into pc. -/
theorem retGoesToTheTopByte : Obligations.RetGoesToTheTopByte := by
  intro s h
  have hroom : hasRoom .ret s = true := (canPop_iff s 1).2 (by omega)
  exact ⟨effect .ret s, exec_of_hasRoom hroom, rfl, rfl, sameRegsBut_effect s .ret, fun _ _ => rfl, rfl, rfl, rfl, rfl⟩

/-- Settles O30: outside its bounds each of the five fails its stack check. -/
theorem stackInstructionsFaultOutOfBounds : Obligations.StackInstructionsFaultOutOfBounds := by
  intro a s
  refine ⟨fun h => ?_, fun h => ?_, fun h => exec_of_not_hasRoom (i := .iret) (canPop_eq_false (by omega))⟩
  · have hfull : s.canPush 1 = false := canPush_eq_false (by omega)
    exact ⟨exec_of_not_hasRoom (i := .push a) hfull, exec_of_not_hasRoom (i := .call a) hfull⟩
  · have hempty : s.canPop 1 = false := canPop_eq_false (by omega)
    exact ⟨exec_of_not_hasRoom (i := .pop a) hempty, exec_of_not_hasRoom (i := .ret) hempty⟩

section StackPointer
variable {s : State} {k : Nat}

theorem sp_sub_le_of_canPush (hk : 1 ≤ k) (h : s.canPush k = true) : (s.sp - BitVec.ofNat 8 k).toNat ≤ 0xF4 := by
  obtain ⟨hlo, hhi⟩ := (canPush_iff s k).1 h
  rw [toNat_sub_ofNat hlo]
  omega

theorem sp_add_le_of_canPop (h : s.canPop k = true) : (s.sp + BitVec.ofNat 8 k).toNat ≤ 0xF4 := by
  have hle := (canPop_iff s k).1 h
  rwa [toNat_add_ofNat (by omega)]

/-- What a stack instruction with room leaves as SP (42_stack.md R82). -/
theorem effect_sp_le {i : Instr} (hroom : hasRoom i s = true)
    (hi : (∃ a, i = .push a) ∨ (∃ a, i = .call a) ∨ i = .ret ∨ i = .iret ∨ ∃ a, a ≠ .sp ∧ i = .pop a) :
    (effect i s).sp.toNat ≤ 0xF4 := by
  rcases hi with ⟨a, rfl⟩ | ⟨a, rfl⟩ | rfl | rfl | ⟨a, ha, rfl⟩
  · exact sp_sub_le_of_canPush le_rfl hroom
  · exact sp_sub_le_of_canPush le_rfl hroom
  · exact sp_add_le_of_canPop hroom
  · rw [effect, interruptReturn_sp]
    exact sp_add_le_of_canPop hroom
  · rw [effect, State.advance_sp, State.popReg_sp s a ha]
    exact sp_add_le_of_canPop hroom

end StackPointer

/-- Settles O31: what did not fault passed its stack check, which bounds the SP it leaves. -/
theorem stackOperationsKeepTheStackPointerInBounds : Obligations.StackOperationsKeepTheStackPointerInBounds := by
  refine ⟨fun i s t _ h hno hi => ?_, fun i s t _ h hno => ?_⟩
  · rcases exec_cases h with ⟨hroom, rfl⟩ | ⟨-, rfl⟩
    · exact effect_sp_le hroom hi
    · exact absurd rfl (hno _)
  · rcases interruptEntry_cases s t h with ⟨-, rfl⟩ | ⟨-, hroom, rfl⟩ | ⟨-, -, rfl⟩
    · exact absurd rfl (hno _)
    · rw [enterHandler_sp]
      exact sp_sub_le_of_canPush (by decide) hroom
    · exact absurd rfl (hno _)

/-- A push and then SP one up again leave every register as it was. -/
theorem push_dropTop_reg (s : State) (v : Byte) (r : Reg) : (s.push v).dropTop.reg r = s.reg r := by
  rw [State.dropTop_reg, State.push_reg, State.push_sp]
  split
  · next h => rw [h, BitVec.sub_add_cancel, State.sp_eq]
  · rfl

/-- Settles O41: RET pops the byte CALL pushed, one below the old SP. -/
theorem callThenRetReturnsPastTheCall : Obligations.CallThenRetReturnsPastTheCall := by
  intro a s hw hlo hhi
  have hcall : hasRoom (.call a) s = true := (canPush_iff s 1).2 ⟨hlo, by omega⟩
  have hsp : (effect (.call a) s).sp.toNat = s.sp.toNat - 1 := toNat_sub_ofNat hlo
  have hret : hasRoom .ret (effect (.call a) s) = true := (canPop_iff _ 1).2 (by omega)
  exact ⟨_, _, exec_of_hasRoom hcall, exec_of_hasRoom hret, push_byteAt_pushAddress _ hw,
    fun r _ => push_dropTop_reg s (s.pc + 2#8) r, sameBytesBut_push _ hw, rfl, rfl, rfl, rfl⟩

/-! ### Pushes and pops in a row -/

section Sequence
variable {s t : State}

theorem execAll_cons {i : Instr} (rest : List Instr) (h : exec i s = .next t) :
    execAll (i :: rest) s = execAll rest t := by
  simp only [execAll, h]

theorem execAll_append {earlier : List Instr} (later : List Instr) (h : execAll earlier s = .next t) :
    execAll (earlier ++ later) s = execAll later t := by
  induction earlier generalizing s with
  | nil => cases h; rfl
  | cons i rest ih =>
    obtain ⟨u, hu⟩ := exec_isNext i s
    rw [execAll_cons _ hu] at h
    rw [List.cons_append, execAll_cons _ hu, ih h]

/-- From `s` to `t` nothing changes but pc, which advances by `4 * n`, and the `n` bytes below SP. -/
structure RestoredBut (n : Nat) (s t : State) : Prop where
  regs : ∀ r, t.reg r = s.reg r
  pc : t.pc = s.pc + BitVec.ofNat 8 (4 * n)
  bytes : ∀ a : Byte, a.toNat + n < s.sp.toNat ∨ s.sp.toNat ≤ a.toNat → t.byteAt a = s.byteAt a
  fl : t.fl = s.fl
  ie : t.ie = s.ie
  run : t.run = s.run
  output : t.output = s.output

/-- The outermost pair: what a PUSH stored is still there after the pairs inside, and the POP of the same register
takes it back. -/
theorem RestoredBut.push_pop {n : Nat} (a : Reg) (hw : s.mem.wf = true) (hlo : n + 1 ≤ s.sp.toNat)
    (hin : RestoredBut n (effect (.push a) s) t) : RestoredBut (n + 1) s (effect (.pop a) t) := by
  have hpush : (effect (.push a) s).sp = s.sp - 1#8 := rfl
  have hpushNat : (effect (.push a) s).sp.toNat = s.sp.toNat - 1 := toNat_sub_ofNat (by omega)
  have hsp : t.sp = s.sp - 1#8 := hin.regs .sp
  have hbytes : ∀ c : Byte, c.toNat + n < s.sp.toNat - 1 ∨ s.sp.toNat - 1 ≤ c.toNat →
      t.byteAt c = (s.push (s.reg a)).byteAt c := fun c hc => hin.bytes c (by rwa [hpushNat])
  have htop : t.byteAt t.sp = s.reg a := by
    rw [hsp, hbytes _ (.inr (by rw [← hpush, hpushNat]))]
    exact push_byteAt_pushAddress (s.reg a) hw
  refine ⟨fun r => ?_, ?_, fun c hc => ?_, hin.fl, hin.ie, hin.run, hin.output⟩
  · have hdrop : t.dropTop.reg r = s.reg r := by
      rw [← push_dropTop_reg s (s.reg a) r, State.dropTop_reg, State.dropTop_reg, hsp, hin.regs r]
      rfl
    by_cases hr : r = a
    · rw [hr]
      exact (t.dropTop.setReg_reg_same a t.top).trans htop
    · exact (t.dropTop.setReg_reg_other a r t.top hr).trans hdrop
  · calc (effect (.pop a) t).pc
        = s.pc + 2#8 + BitVec.ofNat 8 (4 * n) + 2#8 := congrArg (· + 2#8) hin.pc
      _ = s.pc + BitVec.ofNat 8 (4 * (n + 1)) := by
          rw [Nat.mul_succ, BitVec.ofNat_add, show BitVec.ofNat 8 4 = 2#8 + 2#8 from rfl]; ring
  · have hne : c ∉ [s.pushAddress] := by
      rw [List.mem_singleton]
      rintro rfl
      have hc' : s.pushAddress.toNat = s.sp.toNat - 1 := hpushNat
      omega
    exact (hbytes c (by omega)).trans (sameBytesBut_push (s.reg a) hw c hne)

theorem execAll_pushes_pops (rs : List Reg) (hw : s.mem.wf = true) (hlo : rs.length ≤ s.sp.toNat)
    (hhi : s.sp.toNat ≤ 0xF4) :
    ∃ t, execAll (rs.map Instr.push ++ rs.reverse.map Instr.pop) s = .next t ∧ RestoredBut rs.length s t := by
  induction rs generalizing s with
  | nil => exact ⟨s, rfl, fun _ => rfl, by simp, fun _ _ => rfl, rfl, rfl, rfl, rfl⟩
  | cons a rs ih =>
    rw [List.length_cons] at hlo
    have hpush : hasRoom (.push a) s = true := (canPush_iff s 1).2 ⟨by omega, by omega⟩
    have hsp : (effect (.push a) s).sp.toNat = s.sp.toNat - 1 := toNat_sub_ofNat (by omega)
    obtain ⟨t, ht, hin⟩ := ih (effect_wf (.push a) hw) (by omega) (by omega)
    have hpop : hasRoom (.pop a) t = true := by
      have htsp : t.sp = (effect (.push a) s).sp := hin.regs .sp
      exact (canPop_iff t 1).2 (by rw [htsp]; omega)
    refine ⟨_, ?_, hin.push_pop a hw hlo⟩
    rw [List.map_cons, List.reverse_cons, List.map_append, List.cons_append, ← List.append_assoc,
      execAll_cons _ (exec_of_hasRoom hpush), execAll_append _ ht]
    exact execAll_cons [] (exec_of_hasRoom hpop)

end Sequence

/-- Settles O32: induction on the list of registers, one pair of PUSH and POP around the pairs inside. -/
theorem pushesThenPopsRestoreTheRegisters : Obligations.PushesThenPopsRestoreTheRegisters := by
  intro rs s hw hlo hhi
  obtain ⟨t, ht, h⟩ := execAll_pushes_pops rs hw hlo hhi
  exact ⟨t, ht, fun r _ => h.regs r, h.pc, h.bytes, h.fl, h.ie, h.run, h.output⟩

end Sys2Proof.Machine

/-! Raises, the interrupt entry, its return, and the reset (60_exceptions.md sections 1 to 4; 70_reset_and_hazards.md R131). -/

namespace Sys2Proof.Machine

/-! ### Raises -/

section Raise
variable (i j : Line) (s : State)

theorem byte_ext_lines {x y : Byte} (h : ∀ j : Line, x.getLsbD j.val = y.getLsbD j.val) : x = y :=
  BitVec.eq_of_getLsbD_eq fun k hk => h ⟨k, hk⟩

theorem State.setReg_reg_self (r : Reg) : s.setReg r (s.reg r) = s := by cases r <;> rfl

theorem State.setReg_setReg_same (r : Reg) (v w : Byte) : (s.setReg r v).setReg r w = s.setReg r w := by cases r <;> rfl

theorem raiseInterrupt_eq_setReg : raiseInterrupt i s = s.setReg .is ((raiseInterrupt i s).reg .is) := by
  rw [raiseInterrupt, State.setReg_reg_same]

/-- A line that is pending already is not raised again (00_scope.md R7). -/
theorem raiseInterrupt_pending (h : (s.reg .is).getLsbD i.val = true) : raiseInterrupt i s = s := by
  have hsame : (raiseInterrupt i s).reg .is = s.reg .is := by
    refine byte_ext_lines fun k => ?_
    rw [raiseInterrupt_is_getLsbD]
    by_cases hk : k = i
    · rw [hk, h, Bool.or_true]
    · rw [decide_eq_false hk, Bool.false_or]
  rw [raiseInterrupt_eq_setReg, hsame, State.setReg_reg_self]

theorem raiseInterrupt_comm : raiseInterrupt i (raiseInterrupt j s) = raiseInterrupt j (raiseInterrupt i s) := by
  simp only [raiseInterrupt, State.setReg_reg_same, State.setReg_setReg_same]
  rw [BitVec.or_assoc, BitVec.or_comm (lineBit j), BitVec.or_assoc]

end Raise

/-- Settles O43: a raise is one write of IS, which sets the bit of its line. -/
theorem raiseSetsExactlyOnePendingBit : Obligations.RaiseSetsExactlyOnePendingBit :=
  fun i s => ⟨fun j => raiseInterrupt_is_getLsbD i j s, raiseInterrupt_eq_setReg i s, raiseInterrupt_pending i s,
    fun j => raiseInterrupt_comm i j s⟩

/-! ### The entry -/

section Entry
variable {i : Line} {s : State}

theorem interruptEntry_missingVector (h : s.byteAt (vectorAddress i) = missingVector) :
    interruptEntry i s = .next (s.setRun (.faulted (.interruptVectorMissing i (vectorAddress i) s.pc))) :=
  if_pos h

theorem interruptEntry_full (hv : s.byteAt (vectorAddress i) ≠ missingVector) (hroom : s.canPush 9 = false) :
    interruptEntry i s = .next (s.setRun (.faulted (.stackOverflow s.pc (.interruptEntry i) s.sp 9))) :=
  (if_neg hv).trans (if_neg (by rw [hroom]; decide))

theorem interruptEntry_enters (hv : s.byteAt (vectorAddress i) ≠ missingVector) (hlo : 9 ≤ s.sp.toNat)
    (hhi : s.sp.toNat ≤ 0xF5) : interruptEntry i s = .next (enterHandler i (s.byteAt (vectorAddress i)) s) :=
  (if_neg hv).trans (if_pos ((canPush_iff s 9).2 ⟨hlo, hhi⟩))

/-- Bit `i` of IS is cleared and no other (60_exceptions.md R114). -/
theorem getLsbD_and_not_lineBit (x : Byte) (i j : Line) :
    (x &&& ~~~ lineBit i).getLsbD j.val = (x.getLsbD j.val && !decide (j = i)) := by
  rw [BitVec.getLsbD_and, BitVec.getLsbD_not, lineBit_getLsbD, decide_eq_true j.isLt, Bool.true_and]

theorem enterHandler_is_getLsbD (i j : Line) (vector : Byte) (s : State) :
    ((enterHandler i vector s).reg .is).getLsbD j.val = ((s.reg .is).getLsbD j.val && !decide (j = i)) := by
  rw [enterHandler_is, getLsbD_and_not_lineBit]

/-- The addresses of the frame, in the order of the pushes (60_exceptions.md R115). -/
def frameAddresses (sp : Byte) : List Byte := (List.range 9).map fun k => sp - BitVec.ofNat 8 (k + 1)

theorem sameBytesBut_enterHandler (i : Line) (vector : Byte) (h : s.mem.wf = true) :
    SameBytesBut s (enterHandler i vector s) (frameAddresses s.sp) := by
  refine fun c hc => enterHandler_byteAt_other s i vector h c fun k hk heq => hc ?_
  exact List.mem_map.2 ⟨k, List.mem_range.2 hk, heq.symm⟩

end Entry

/-- Settles O45: the entry with a handler and room, its nine saved bytes read one by one. -/
theorem interruptEntrySavesTheContext : Obligations.InterruptEntrySavesTheContext := by
  intro i s hw hv hlo hhi
  have hframe := enterHandler_frame s i (s.byteAt (vectorAddress i)) hw
  refine ⟨_, interruptEntry_enters hv hlo hhi, rfl, enterHandler_ie s i _, enterHandler_sp s i _,
    fun j => enterHandler_is_getLsbD i j _ s, hframe 0 (by decide), hframe 1 (by decide), hframe 2 (by decide),
    hframe 3 (by decide), hframe 4 (by decide), hframe 5 (by decide), hframe 6 (by decide), hframe 7 (by decide), ?_,
    sameBytesBut_enterHandler i _ hw, sameRegsBut_enterHandler s i _, enterHandler_fl s i _, enterHandler_run s i _,
    enterHandler_output s i _⟩
  rw [enterHandler_is]
  exact hframe 8 (by decide)

/-- Settles O46: the vector is looked at before the stack, and each check faults before the entry begins. -/
theorem interruptEntryFaultsBeforeItBegins : Obligations.InterruptEntryFaultsBeforeItBegins :=
  fun _ _ => ⟨interruptEntry_missingVector, fun hv h => interruptEntry_full hv (canPush_eq_false h)⟩

/-! ### The return -/

section Return
variable {s : State}

theorem exec_iret_of_sp_le (h : s.sp.toNat ≤ 0xEB) : exec .iret s = .next (interruptReturn s) :=
  exec_iret_of_canPop ((canPop_iff s 9).2 (by omega))

/-- IRET does not read the IS it finds: it comes from the frame. -/
theorem interruptReturn_setReg_is (s : State) (v : Byte) : interruptReturn (s.setReg .is v) = interruptReturn s := by
  rw [interruptReturn_eq, interruptReturn_eq]
  rfl

theorem pendingEnabled_interruptReturn (s : State) (j : Line) :
    pendingEnabled (interruptReturn s) j = ((s.byteAt s.sp).getLsbD j.val && (s.byteAt (s.sp + 1#8)).getLsbD j.val) := by
  rw [pendingEnabled, interruptReturn_reg, interruptReturn_reg]

end Return

/-- Settles O47: IRET with room is the nine pops, each read from its place in the frame. -/
theorem iretRestoresTheContext : Obligations.IretRestoresTheContext := by
  intro s h
  have hreg := interruptReturn_reg s
  exact ⟨interruptReturn s, exec_iret_of_sp_le h, hreg .r6, hreg .r5, hreg .r4, hreg .r3, hreg .r2, hreg .r1, hreg .r0,
    interruptReturn_fl s, interruptReturn_pc s, interruptReturn_sp s, interruptReturn_ie s, interruptReturn_run s,
    interruptReturn_output s, fun c _ => interruptReturn_byteAt s c⟩

/-- Settles O49: a raise writes IS alone, which IRET overwrites. -/
theorem iretLosesLinesRaisedInTheHandler : Obligations.IretLosesLinesRaisedInTheHandler := by
  intro j s h
  have hraised : (raiseInterrupt j s).sp.toNat ≤ 0xEB := h
  rw [exec_iret_of_sp_le h, exec_iret_of_sp_le hraised, raiseInterrupt, interruptReturn_setReg_is]

/-- Settles O50: after IRET `ie` is 1, so the check of the next cycle serves the lowest restored line. -/
theorem theNextPendingLineFollowsTheIret : Obligations.TheNextPendingLineFollowsTheIret := by
  intro i s hr h his him hlow
  refine ⟨interruptReturn s, exec_iret_of_sp_le h, step_entry ((interruptReturn_run s).trans hr) ?_⟩
  refine interruptCheck_eq_some_iff_lowest.2 ⟨interruptReturn_ie s, ?_, fun j hj => ?_⟩
  · rw [pendingEnabled_interruptReturn, his, him, Bool.and_true]
  · exact (pendingEnabled_interruptReturn s j).trans (hlow j hj)

/-- A handler's state in which SP and the frame are as the entry of line `i` into `vector` left them. -/
structure KeepsFrame (i : Line) (vector : Byte) (s h : State) : Prop where
  sp : h.sp = s.sp - 9#8
  bytes : ∀ k < 9, h.byteAt (s.sp - BitVec.ofNat 8 (k + 1)) =
    (enterHandler i vector s).byteAt (s.sp - BitVec.ofNat 8 (k + 1))

section KeepsFrame
variable {i : Line} {vector : Byte} {s h : State}

/-- The frame said by addresses from SP up to the old SP. -/
theorem keepsFrame_of_bytes (hlo : 9 ≤ s.sp.toNat) (hsp : h.sp = (enterHandler i vector s).sp)
    (hbytes : ∀ a : Byte, (enterHandler i vector s).sp.toNat ≤ a.toNat → a.toNat < s.sp.toNat →
      h.byteAt a = (enterHandler i vector s).byteAt a) : KeepsFrame i vector s h := by
  rw [enterHandler_sp] at hsp hbytes
  refine ⟨hsp, fun k hk => hbytes _ ?_ ?_⟩
  · rw [toNat_sub_ofNat (k := 9) hlo, toNat_sub_ofNat (by omega)]
    omega
  · rw [toNat_sub_ofNat (by omega)]
    omega

/-- Counted up from the handler's SP, the frame is the pushed bytes in reverse. -/
theorem KeepsFrame.byteAt (hk : KeepsFrame i vector s h) (hw : s.mem.wf = true) (k : Nat) (h9 : k < 9) {off : Byte}
    (hoff : off + BitVec.ofNat 8 (k + 1) = 9#8) :
    h.byteAt (h.sp + off) = (interruptFrame ((s.setIe false).setReg .is (s.reg .is &&& ~~~ lineBit i)))[k]'(by
        simpa [interruptFrame, frameRegs] using h9) := by
  have haddr : h.sp + off = s.sp - BitVec.ofNat 8 (k + 1) := by
    rw [hk.sp, ← hoff]
    ring
  rw [haddr, hk.bytes k h9, enterHandler_frame s i vector hw k h9]

/-- IRET from a handler that kept the frame restores x[0] to x[5] and SP. -/
theorem KeepsFrame.sameRegsBut_return (hk : KeepsFrame i vector s h) (hw : s.mem.wf = true) :
    SameRegsBut s (interruptReturn h) [.is] := by
  intro r hr
  rw [interruptReturn_reg]
  cases r with
  | r0 => exact hk.byteAt hw 2 (by decide) rfl
  | r1 => exact hk.byteAt hw 3 (by decide) rfl
  | r2 => exact hk.byteAt hw 4 (by decide) rfl
  | r3 => exact hk.byteAt hw 5 (by decide) rfl
  | r4 => exact hk.byteAt hw 6 (by decide) rfl
  | r5 => exact hk.byteAt hw 7 (by decide) rfl
  | r6 => exact absurd (List.mem_singleton.2 rfl) hr
  | r7 => exact (congrArg (· + 9#8) hk.sp).trans (BitVec.sub_add_cancel _ _)

/-- IRET from a handler that kept the frame restores the IS that the entry saved. -/
theorem KeepsFrame.return_is (hk : KeepsFrame i vector s h) (hw : s.mem.wf = true) :
    (interruptReturn h).reg .is = s.reg .is &&& ~~~ lineBit i := by
  have hbyte := hk.byteAt hw 8 (by decide) (off := 0#8) rfl
  rw [BitVec.add_zero] at hbyte
  exact (interruptReturn_reg h .r6).trans hbyte

end KeepsFrame

/-- Settles O48: the nine pops read back the nine bytes the entry pushed, which the handler kept. -/
theorem iretUndoesTheEntry : Obligations.IretUndoesTheEntry := by
  intro i s hw hv hlo hhi
  refine ⟨_, interruptEntry_enters hv hlo (by omega), fun h hsp hbytes => ?_⟩
  have hk := keepsFrame_of_bytes hlo hsp hbytes
  have hle : h.sp.toNat ≤ 0xEB := by
    rw [hk.sp, toNat_sub_ofNat (k := 9) hlo]
    omega
  refine ⟨interruptReturn h, exec_iret_of_sp_le hle, hk.sameRegsBut_return hw, fun j => ?_, ?_, ?_, interruptReturn_ie h,
    interruptReturn_run h, interruptReturn_output h, fun c _ => interruptReturn_byteAt h c⟩
  · rw [hk.return_is hw, getLsbD_and_not_lineBit]
  · exact (interruptReturn_pc h).trans (hk.byteAt hw 0 (by decide) rfl)
  · exact (interruptReturn_fl h).trans (hk.byteAt hw 1 (by decide) rfl)

/-! ### Reset -/

theorem hostReset_reg_other (s : State) {r : Reg} (h : r ≠ .sp) : (hostReset s).reg r = 0x00#8 := by
  cases r with
  | r7 => exact absurd rfl h
  | _ => rfl

theorem interruptCheck_hostReset (s : State) : interruptCheck (hostReset s) = none := by
  refine interruptCheck_nothing (hostReset s) ?_
  rw [hostReset_reg_other s (by decide), BitVec.zero_and]

/-- Settles O51: the reset is the update of the table; of the other actions a cycle is the identity on a stopped machine and
a raise writes IS alone. -/
theorem resetLeavesTheBlockAsTheTableSays : Obligations.ResetLeavesTheBlockAsTheTableSays := by
  refine ⟨fun s => ⟨rfl, rfl, rfl, fun r => hostReset_reg_other s, rfl, rfl, rfl, rfl, interruptCheck_hostReset s, rfl, rfl⟩,
    rfl, fun _ _ => rfl, fun m s h => ⟨?_, fun i => ?_⟩⟩
  · exact ⟨s, stepWith_stopped m s h, rfl⟩
  · exact ⟨raiseInterrupt i s, rfl, rfl⟩

end Sys2Proof.Machine
